-- ==== Sys2Proof/Word.lean ====
section
/-! DEFINITION. The word types of the block, and the two forms an instruction takes on the host port
(spec 00_scope.md R7; 30_encoding.md R70, R77). -/

namespace Sys2Proof

/-- `u8` (00_scope.md R7). -/
abbrev Byte := BitVec 8

/-- `u16`: PADDR and the CRC register (00_scope.md R6, R7). -/
abbrev Half := BitVec 16

/-- `u32`, the parameter `WORD` (00_scope.md R6). -/
abbrev Word := BitVec 32

/-- One bus transaction `BUS` as it stands on the host port (30_encoding.md R77): the 13-bit header
`hdr = we:off` (`we` at bit 12, 1 for a write; `off` at bits 11:0) and, beside it, the 32-bit write data,
which a read does not use. -/
structure BusTxn where
  hdr  : BitVec 13
  data : Word
  deriving DecidableEq, Repr

/-- An instruction of the opcode table in its encoded form: a command word of format `CMDW`
(30_encoding.md R70) or a transaction of format `BUS` (R77). -/
inductive Encoded where
  | cmdw (v : Word)
  | bus (t : BusTxn)
  deriving DecidableEq, Repr

end Sys2Proof
end

