-- ==== Sys2Proof/Config.lean ====
section
/-! DEFINITION. The parameters a model of the block takes (spec 00_scope.md R6), at the values the spec gives
them, and the free values of hardware reset (70_reset_and_hazards.md R191). The constants of the digest and of
the MAC block, which are no parameters, stand with the functions that use them. -/

namespace Sys2Proof

/-- `FB_BYTES`, the frame buffer's capacity (00_scope.md R6; DESIGN CHOICE: the spec's value 64 of a parameter it
leaves open, log 1). -/
def Config.fbBytes : Nat := 64

/-- `WINDOW_BYTES`, the size of the host register window (00_scope.md R6, 20_memory.md R50). -/
def Config.windowBytes : Nat := 4096

/-- `CRC_POLY_REFL` (00_scope.md R6, 41_crc.md R100; DESIGN CHOICE: the spec's value of an open parameter, log 2). -/
def Config.crcPolyRefl : Half := 0xA001#16

/-- `CRC_INIT` (00_scope.md R6, 41_crc.md R100; DESIGN CHOICE: the spec's value of an open parameter, log 2). -/
def Config.crcInit : Half := 0x0000#16

/-- The `draw()` of hardware reset number `n` for the window word at byte offset `off` (70_reset_and_hazards.md
R191: "each bit of each unspecified register takes a value the hardware does not fix, chosen at reset").
DESIGN CHOICE, log 3: it has no body, so that nothing can be proved of the bits drawn. -/
opaque Config.resetDraw (n off : Nat) : Word

end Sys2Proof
end

