-- ==== Sys2Proof/Syntax.lean ====
section
/-! DEFINITION. The instructions of the block: one constructor per row of spec/opcode_table.json
(30_encoding.md R71, R77). -/

namespace Sys2Proof

/-- An instruction: one of the ten commands of 30_encoding.md R71, or one of the two bus accesses of R77.
Operand fields are byte counts, byte indices and byte offsets (R73), so they are numbers; `WellFormed.lean` bounds
them by their fields' widths. -/
inductive Instr where
  /-- NOP, op 0x00 (44_control.md R160). -/
  | nop
  /-- CLEAR, op 0x01 (44_control.md R161). -/
  | clear
  /-- MAC.ASSEMBLE, op 0x10 (43_mac_verify.md R140). -/
  | macAssemble
  /-- MAC.DIGEST, op 0x11 (42_mac_digest.md R122). -/
  | macDigest
  /-- MAC.FOLD, op 0x12 (42_mac_digest.md R123). -/
  | macFold
  /-- MAC.COMPARE, op 0x13 (43_mac_verify.md R141). -/
  | macCompare
  /-- MAC.EXPECT, op 0x14 (43_mac_verify.md R142). -/
  | macExpect
  /-- MAC.AUTH, op 0x15 (43_mac_verify.md R143). -/
  | macAuth
  /-- CRC.COMPUTE `len`, op 0x20 (41_crc.md R102). -/
  | crcCompute (len : Nat)
  /-- CRC.VALIDATE `len, i1, i2`, op 0x21 (41_crc.md R103). -/
  | crcValidate (len i1 i2 : Nat)
  /-- REG.RD `off`, `we` = 0 (40_host_access.md R90). -/
  | regRd (off : Nat)
  /-- REG.WR `off, data`, `we` = 1 (40_host_access.md R91). -/
  | regWr (off : Nat) (data : Word)
  deriving DecidableEq, Repr

end Sys2Proof
end

