-- ==== Sys2Proof/WellFormed.lean ====
section
/-! DEFINITION. Which instructions an encoding exists for: each operand fits its field (30_encoding.md R70, R73,
R77). Whether a count or an index is in range for FB is checked at execution, not here (R73). -/

namespace Sys2Proof

/-- An 8-bit operand field holds `n` (30_encoding.md R73). -/
def fitsField (n : Nat) : Bool := decide (n < 256)

/-- A 12-bit window offset (20_memory.md R50). -/
def fitsWindow (off : Nat) : Bool := decide (off < Config.windowBytes)

/-- Every operand of `i` fits its field. -/
def Instr.wellFormed (i : Instr) : Bool :=
  match i with
  | .nop => true
  | .clear => true
  | .macAssemble => true
  | .macDigest => true
  | .macFold => true
  | .macCompare => true
  | .macExpect => true
  | .macAuth => true
  | .crcCompute len => fitsField len
  | .crcValidate len i1 i2 => fitsField len && fitsField i1 && fitsField i2
  | .regRd off => fitsWindow off
  | .regWr off _ => fitsWindow off

/-- `i` is a command, one of the ten of 30_encoding.md R71, and not a bus access. -/
def Instr.isCommand (i : Instr) : Bool :=
  match i with
  | .nop => true
  | .clear => true
  | .macAssemble => true
  | .macDigest => true
  | .macFold => true
  | .macCompare => true
  | .macExpect => true
  | .macAuth => true
  | .crcCompute _ => true
  | .crcValidate _ _ _ => true
  | .regRd _ => false
  | .regWr _ _ => false

end Sys2Proof
end

