-- ==== Sys2Proof/Decode.lean ====
section
/-! DEFINITION. The decoder of command words (30_encoding.md R70 to R75) and of bus transactions (R77), and the
encoder written from the same tables. -/

namespace Sys2Proof

/-- Why a command word is illegal (30_encoding.md R74; both raise ILLEGAL_CMD, 60_exceptions.md R173). -/
inductive DecodeError where
  /-- `op` is not in the opcode map (30_encoding.md R71). -/
  | unassignedOpcode
  /-- The opcode is assigned and a field it does not use is nonzero (30_encoding.md R74). -/
  | reservedField
  deriving DecidableEq, Repr

/-! ### The fields of a command word (30_encoding.md R70) -/

/-- Bits 7:0. -/
def opField (v : Word) : Byte := v.extractLsb' 0 8
/-- Bits 15:8. -/
def fieldA (v : Word) : Byte := v.extractLsb' 8 8
/-- Bits 23:16. -/
def fieldB (v : Word) : Byte := v.extractLsb' 16 8
/-- Bits 31:24. -/
def fieldC (v : Word) : Byte := v.extractLsb' 24 8

/-- The word with the given fields (30_encoding.md R70), each number taken to its field's width. -/
def commandWord (op a b c : Nat) : Word :=
  BitVec.ofNat 8 c ++ BitVec.ofNat 8 b ++ BitVec.ofNat 8 a ++ BitVec.ofNat 8 op

/-- A command without operands: all three fields are reserved and must be zero (30_encoding.md R74). -/
def withoutOperands (v : Word) (i : Instr) : Except DecodeError Instr :=
  if fieldA v = 0 ∧ fieldB v = 0 ∧ fieldC v = 0 then .ok i else .error .reservedField

/-- A command whose only operand is field A: B and C are reserved (30_encoding.md R74). -/
def withOperandA (v : Word) (i : Nat → Instr) : Except DecodeError Instr :=
  if fieldB v = 0 ∧ fieldC v = 0 then .ok (i (fieldA v).toNat) else .error .reservedField

/-- Decoding of a word written to CMD, in the order of 30_encoding.md R74: the opcode, then the reserved fields. -/
def decodeCommand (v : Word) : Except DecodeError Instr :=
  match (opField v).toNat with
  | 0x00 => withoutOperands v .nop
  | 0x01 => withoutOperands v .clear
  | 0x10 => withoutOperands v .macAssemble
  | 0x11 => withoutOperands v .macDigest
  | 0x12 => withoutOperands v .macFold
  | 0x13 => withoutOperands v .macCompare
  | 0x14 => withoutOperands v .macExpect
  | 0x15 => withoutOperands v .macAuth
  | 0x20 => withOperandA v .crcCompute
  | 0x21 => .ok (.crcValidate (fieldA v).toNat (fieldB v).toNat (fieldC v).toNat)
  | _ => .error .unassignedOpcode

/-- Decoding of a bus transaction (30_encoding.md R77): `we` at bit 12 of the header, `off` at bits 11:0. -/
def decodeBus (t : BusTxn) : Instr :=
  if t.hdr.getLsbD 12 then .regWr (t.hdr.extractLsb' 0 12).toNat t.data
  else .regRd (t.hdr.extractLsb' 0 12).toNat

/-- The decoder of both formats. A transaction always decodes; a command word may be illegal. -/
def decode (e : Encoded) : Except DecodeError Instr :=
  match e with
  | .cmdw v => decodeCommand v
  | .bus t => .ok (decodeBus t)

/-- The transaction header `we:off` (30_encoding.md R77). -/
def busHeader (we : Bool) (off : Nat) : BitVec 13 := BitVec.ofBool we ++ BitVec.ofNat 12 off

/-- The encoding of an instruction, from the opcode map (30_encoding.md R71) and the transaction's form (R77); a
read carries data 0. -/
def encode (i : Instr) : Encoded :=
  match i with
  | .nop => .cmdw (commandWord 0x00 0 0 0)
  | .clear => .cmdw (commandWord 0x01 0 0 0)
  | .macAssemble => .cmdw (commandWord 0x10 0 0 0)
  | .macDigest => .cmdw (commandWord 0x11 0 0 0)
  | .macFold => .cmdw (commandWord 0x12 0 0 0)
  | .macCompare => .cmdw (commandWord 0x13 0 0 0)
  | .macExpect => .cmdw (commandWord 0x14 0 0 0)
  | .macAuth => .cmdw (commandWord 0x15 0 0 0)
  | .crcCompute len => .cmdw (commandWord 0x20 len 0 0)
  | .crcValidate len i1 i2 => .cmdw (commandWord 0x21 len i1 i2)
  | .regRd off => .bus ⟨busHeader false off, 0⟩
  | .regWr off data => .bus ⟨busHeader true off, data⟩

/-- How an encoded instruction goes over the host port: a command is a write of its word to CMD, offset 0x000
(10_state.md R23, 30_encoding.md R78); a transaction is itself. -/
def Encoded.toBus (e : Encoded) : BusTxn :=
  match e with
  | .cmdw v => ⟨busHeader true 0x000, v⟩
  | .bus t => t

/-! ### The opcode table's words

`w` holds the instruction's bits as spec/opcode_table.json numbers them. The row's width tells the format: a CMDW
row is one 32-bit word (or the 8 bits of it that the row fixes), a BUS row is the 13-bit header in the low bits of
two bytes, which the write data would follow (DESIGN CHOICE, log 11). -/

/-- The row's bits are a bus header, and not (the low part of) a command word. -/
def isBusWidth (nbits : Nat) : Bool := decide (8 < nbits ∧ nbits ≤ 16 ∨ 32 < nbits)

/-- The encoded instruction whose bits are `w`; bits above `nbits` are 0. -/
def tableWord (nbits w : Nat) : Encoded :=
  if isBusWidth nbits then .bus ⟨BitVec.ofNat 13 w, BitVec.ofNat 32 (w / 2 ^ 16)⟩
  else .cmdw (BitVec.ofNat 32 w)

/-- `w` has no bit outside the fields of its format: none above the instruction, none between the 13-bit header
and the data. -/
def tableWordFits (nbits w : Nat) : Bool :=
  if isBusWidth nbits then decide (w % 2 ^ 16 < 2 ^ 13 ∧ w < 2 ^ 48) else decide (w < 2 ^ 32)

/-- The instruction the decoder reads from the bits `w` of an opcode-table row of `nbits` bits. -/
def decodeTableWord (nbits w : Nat) : Option Instr :=
  if tableWordFits nbits w then (decode (tableWord nbits w)).toOption else none

end Sys2Proof
end

