-- ==== Sys2Proof/Machine/State.lean ====
section
/-! DEFINITION. The state of the block, every register of spec 10_state.md R22 to R39 under the spec's name, and
the host's side of the port; the state after hardware reset (70_reset_and_hazards.md R190, R191). -/

namespace Sys2Proof.Machine

/-- The codes of STATUS.ERR that exist (10_state.md R27, 60_exceptions.md R170). Codes 4 to 15 are "never produced",
so the type has no name for them (log 7). -/
inductive ErrCode where
  /-- 0 NONE: the last command completed. -/
  | none
  /-- 1 ILLEGAL_CMD: unassigned opcode or nonzero reserved field. -/
  | illegalCmd
  /-- 2 RANGE: a CRC operand outside FB. -/
  | range
  /-- 3 BUS: misaligned or reserved offset, or a write to a read-only register. -/
  | bus
  deriving DecidableEq, Repr

/-- STATUS by its fields (10_state.md R24). The reserved bits hold nothing: they read 0 and are never written. -/
structure Status where
  /-- ERR, bits 7:4 (R27). -/
  err       : ErrCode
  /-- ERR_STICKY, bit 8 (R28). -/
  errSticky : Bool
  /-- FRAME_OK, bit 0 (R25). -/
  frameOk   : Bool
  /-- MAC_EQ, bit 1 (R26). -/
  macEq     : Bool
  deriving DecidableEq, Repr

/-- What the outside does to the block: a bus access of the host (10_state.md R20, 30_encoding.md R77), or a
hardware reset (70_reset_and_hazards.md R190). -/
inductive HostAction where
  | access (t : BusTxn)
  | hardReset
  deriving DecidableEq, Repr

/-- The state of the block and of its host port. -/
structure State where
  /-- STATUS, offset 0x004 (10_state.md R24). -/
  status  : Status
  /-- CRC, offset 0x008 (R29). -/
  crc     : Half
  /-- PADDR, offset 0x010 (R30). -/
  paddr   : Half
  /-- CHAL[0..2], offset 0x014 (R31). -/
  chal    : Vector Byte 3
  /-- SEC[0..7], offsets 0x018 and 0x01C (R32). -/
  sec     : Vector Byte 8
  /-- ID[0..7], offsets 0x020 and 0x024 (R33). -/
  id      : Vector Byte 8
  /-- W[0..15], offset 0x040 + 4i (R34). -/
  w       : Vector Word 16
  /-- H[0..4], offset 0x080 + 4i (R35). -/
  h       : Vector Word 5
  /-- MAC[0..19], offset 0x0A0 + 4k (R36). -/
  mac     : Vector Byte 20
  /-- DMAC[0..19], offset 0x0C0 + 4k (R37). -/
  dmac    : Vector Byte 20
  /-- PAGE[0..31], offset 0x100 + 4k (R38). -/
  page    : Vector Byte 32
  /-- FB[0..FB_BYTES-1], offset 0x200 + 4k (R39). -/
  fb      : Vector Byte Config.fbBytes
  /-- The `rdata` of the last bus read (30_encoding.md R77); absent while no read has answered since reset. The
  model's own field: no register of the block (DESIGN CHOICE, log 5). -/
  rdata   : Option Word
  /-- What the host has yet to do, oldest first. The model's own field: the position in the sequence of accesses
  "is kept by the host, not by the block" (10_state.md R21; DESIGN CHOICE, log 4). -/
  pending : List HostAction
  /-- How many hardware resets followed the first. The model's own field, the index of the free values of reset
  (DESIGN CHOICE, log 3). -/
  resets  : Nat
  deriving DecidableEq, Repr

/-- A fault stops the machine. The block has none: "no error stops it" (60_exceptions.md R171) and "no command of the
block hangs or aborts on any data value" (R182). The type has no constructor, so no step faults. -/
inductive Fault where
  deriving DecidableEq, Repr

/-- A refusal is an instruction without a meaning in the model. -/
inductive Refusal where
  /-- Raised by an arm of `exec` whose instruction has no meaning yet (safe: the machine stops). No arm raises it. -/
  | notModelled (mnemonic : String)
  deriving DecidableEq, Repr

/-- The outcome of a step of this machine. -/
abbrev Result := Host.Outcome State Fault Refusal

/-- The bytes drawn at reset `n` for a packed register whose first word is at `off`; host packing is little-endian
(20_memory.md R57), element `4k+j` at bits `8j+7:8j` of word `k`. -/
def drawnBytes (n off size : Nat) : Vector Byte size :=
  Vector.ofFn fun j => (Config.resetDraw n (off + 4 * (j.val / 4))).extractLsb' (8 * (j.val % 4)) 8

/-- The words drawn at reset `n` for a register of words whose first is at `off`. -/
def drawnWords (n off size : Nat) : Vector Word size :=
  Vector.ofFn fun i => Config.resetDraw n (off + 4 * i.val)

/-- The state hardware reset number `n` leaves (70_reset_and_hazards.md R190, R191): STATUS zero, every data
register an unspecified, stable draw; the host's further actions are not the block's and stand as they are. -/
def State.afterReset (n : Nat) (pending : List HostAction) : State where
  status  := { frameOk := false, macEq := false, err := .none, errSticky := false }
  crc     := (Config.resetDraw n 0x008).extractLsb' 0 16
  paddr   := (Config.resetDraw n 0x010).extractLsb' 0 16
  chal    := drawnBytes n 0x014 3
  sec     := drawnBytes n 0x018 8
  id      := drawnBytes n 0x020 8
  w       := drawnWords n 0x040 16
  h       := drawnWords n 0x080 5
  mac     := drawnBytes n 0x0A0 20
  dmac    := drawnBytes n 0x0C0 20
  page    := drawnBytes n 0x100 32
  fb      := drawnBytes n 0x200 Config.fbBytes
  rdata   := Option.none
  pending := pending
  resets  := n

/-- The machine right after its first hardware reset, waiting "for the host's first bus access"
(70_reset_and_hazards.md R190). -/
def State.reset : State := State.afterReset 0 []

end Sys2Proof.Machine
end

