-- ==== Sys2Proof/Machine/Flags.lean ====
section
/-! DEFINITION. STATUS as the host reads it (spec 10_state.md R24, R27), and every way a command computes or
writes one of its fields. The block has no arithmetic flag (42_mac_digest.md R127). -/

namespace Sys2Proof.Machine

/-- The 4-bit code of an error (10_state.md R27). -/
def ErrCode.code (e : ErrCode) : BitVec 4 :=
  match e with
  | .none => 0#4
  | .illegalCmd => 1#4
  | .range => 2#4
  | .bus => 3#4

/-- STATUS as one 32-bit word: FRAME_OK at bit 0, MAC_EQ at bit 1, ERR at bits 7:4, ERR_STICKY at bit 8, every other
bit 0 (10_state.md R24). -/
def Status.toWord (st : Status) : Word :=
  0#23 ++ BitVec.ofBool st.errSticky ++ st.err.code ++ 0#2 ++ BitVec.ofBool st.macEq ++ BitVec.ofBool st.frameOk

/-- STATUS after CLEAR: 0x00000000 (44_control.md R161). -/
def Status.cleared : Status := { frameOk := false, macEq := false, err := .none, errSticky := false }

/-- ERR <- 0, nothing else (60_exceptions.md R172). -/
def Status.completed (st : Status) : Status := { st with err := .none }

/-- ERR <- `code`, ERR_STICKY <- 1, nothing else (60_exceptions.md R171). -/
def Status.raised (code : ErrCode) (st : Status) : Status := { st with err := code, errSticky := true }

/-- FRAME_OK of CRC.VALIDATE (41_crc.md R103): the two CRC bytes of the frame are the low and the high byte of the
complemented CRC. -/
def frameOkFlag (c : Half) (crcByte1 crcByte2 : Byte) : Bool :=
  crcByte1 == (~~~c).extractLsb' 0 8 && crcByte2 == (~~~c).extractLsb' 8 8

/-- MAC_EQ of MAC.COMPARE (43_mac_verify.md R141): all 20 bytes are equal. -/
def macEqFlag (mac dmac : Vector Byte 20) : Bool := decide (mac.toList = dmac.toList)

end Sys2Proof.Machine
end

