-- ==== Sys2Proof/Machine/Ops.lean ====
section
/-! DEFINITION. The named operations every meaning is written over: how a command completes, how a command or an
access raises an error (the block's whole exception mechanism, spec 60_exceptions.md R171, R172, R178; there is no
trap and so no return from one, R179), the answer of a bus read, and the host's side of the port. -/

namespace Sys2Proof.Machine

/-- The state after `complete()`: STATUS.ERR <- 0, ERR_STICKY kept (60_exceptions.md R172). -/
def State.completed (s : State) : State := { s with status := s.status.completed }

/-- The state after `raise Err(code)`: STATUS.ERR <- `code`, STATUS.ERR_STICKY <- 1, "FRAME_OK, MAC_EQ and every data
register keep their values" (60_exceptions.md R171). -/
def State.withError (code : ErrCode) (s : State) : State := { s with status := s.status.raised code }

/-- The state after a bus read that returns `v` (30_encoding.md R77). -/
def State.respond (v : Word) (s : State) : State := { s with rdata := some v }

/-- `complete()` as the end of a command (00_scope.md R11). -/
def complete (s : State) : Result := .next s.completed

/-- `raise Err(code)` (00_scope.md R11, 60_exceptions.md R171): the command or access is abandoned before it writes
anything; the block goes on. -/
def raiseErr (code : ErrCode) (s : State) : Result := .next (s.withError code)

/-- The state with a hardware reset taken (70_reset_and_hazards.md R190): a fresh draw for every data register. -/
def State.hardReset (s : State) : State := State.afterReset (s.resets + 1) s.pending

/-- The host's next action, taken from its list, or none (10_state.md R20). -/
def State.takeAction (s : State) : Option (HostAction × State) :=
  match s.pending with
  | [] => none
  | a :: rest => some (a, { s with pending := rest })

/-- The state in which the host's next action is the access `t`. -/
def State.issueNext (t : BusTxn) (s : State) : State := { s with pending := .access t :: s.pending }

end Sys2Proof.Machine
end

