-- ==== Sys2Proof/Machine/Operands.lean ====
section
/-! DEFINITION. The operands of the block: byte order (spec 00_scope.md R10, 20_memory.md R57), the window's map
(R52) with the reading of every register (40_host_access.md R90), and the bytes a CRC command covers. -/

namespace Sys2Proof.Machine

/-- `be32(b0, b1, b2, b3)`: the first byte is the most significant (00_scope.md R10). -/
def be32 (b0 b1 b2 b3 : Byte) : Word := b0 ++ b1 ++ b2 ++ b3

/-- `le32(b0, b1, b2, b3)`: the first byte is the least significant (00_scope.md R10). -/
def le32 (b0 b1 b2 b3 : Byte) : Word := b3 ++ b2 ++ b1 ++ b0

/-- `x[8j+7:8j]`, byte `j` of a word counted from its least significant byte (00_scope.md R7, R10). -/
def byteOf (j : Nat) (x : Word) : Byte := x.extractLsb' (8 * j) 8

/-- Word `k` of a packed byte register: `le32(v[4k], v[4k+1], v[4k+2], v[4k+3])` (20_memory.md R57). -/
def packWord {n : Nat} (v : Vector Byte n) (k : Nat) (h : 4 * k + 3 < n) : Word :=
  le32 v[4 * k] v[4 * k + 1] v[4 * k + 2] v[4 * k + 3]

/-- `v[4k+j] <- data[8j+7:8j]` for j = 0..3 (40_host_access.md R91). -/
def unpackWord {n : Nat} (v : Vector Byte n) (k : Nat) (data : Word) (h : 4 * k + 3 < n) : Vector Byte n :=
  (((v.set (4 * k) (byteOf 0 data)).set (4 * k + 1) (byteOf 1 data)).set (4 * k + 2) (byteOf 2 data)).set
    (4 * k + 3) (byteOf 3 data)

/-- A register word of the window (20_memory.md R52), by register name and word number. -/
inductive WindowReg where
  | cmd
  | status
  | crc
  | paddr
  | chal
  | sec (k : Fin 2)
  | id (k : Fin 2)
  | w (i : Fin 16)
  | h (i : Fin 5)
  | mac (k : Fin 5)
  | dmac (k : Fin 5)
  | page (k : Fin 8)
  | fb (k : Fin (Config.fbBytes / 4))
  deriving DecidableEq, Repr

/-- The number of the word at `off` in a range of `n` words from `base` on. -/
def wordIn (base n off : Nat) : Option (Fin n) :=
  if h : base ≤ off ∧ (off - base) / 4 < n then some ⟨(off - base) / 4, h.2⟩ else none

/-- The register whose `n` words begin at `base`: a row of the window map. -/
def mapRow (base n : Nat) (reg : Fin n → WindowReg) (off : Nat) : Option WindowReg := (wordIn base n off).map reg

/-- The window map, every register it lists (20_memory.md R52). -/
def windowMap : List (Nat → Option WindowReg) :=
  [mapRow 0x000 1 fun _ => .cmd,
   mapRow 0x004 1 fun _ => .status,
   mapRow 0x008 1 fun _ => .crc,
   mapRow 0x010 1 fun _ => .paddr,
   mapRow 0x014 1 fun _ => .chal,
   mapRow 0x018 2 .sec,
   mapRow 0x020 2 .id,
   mapRow 0x040 16 .w,
   mapRow 0x080 5 .h,
   mapRow 0x0A0 5 .mac,
   mapRow 0x0C0 5 .dmac,
   mapRow 0x100 8 .page,
   mapRow 0x200 (Config.fbBytes / 4) .fb]

/-- The register word at a window offset (20_memory.md R52); none where the offset is misaligned (R55) or reserved
(R53). -/
def regAt (off : Nat) : Option WindowReg :=
  if off % 4 ≠ 0 then none else windowMap.findSome? (· off)

/-- The offset of a register word (30_encoding.md R78: `Wi` = 0x040 + 4i, and so on). -/
def WindowReg.offset (r : WindowReg) : Nat :=
  match r with
  | .cmd => 0x000
  | .status => 0x004
  | .crc => 0x008
  | .paddr => 0x010
  | .chal => 0x014
  | .sec k => 0x018 + 4 * k.val
  | .id k => 0x020 + 4 * k.val
  | .w i => 0x040 + 4 * i.val
  | .h i => 0x080 + 4 * i.val
  | .mac k => 0x0A0 + 4 * k.val
  | .dmac k => 0x0C0 + 4 * k.val
  | .page k => 0x100 + 4 * k.val
  | .fb k => 0x200 + 4 * k.val

/-- The word a good read of `r` returns (40_host_access.md R90). CMD reads 0 (10_state.md R23). -/
def readReg (r : WindowReg) (s : State) : Word :=
  match r with
  | .cmd => 0
  | .status => s.status.toWord
  | .crc => s.crc.setWidth 32
  | .paddr => s.paddr.setWidth 32
  | .chal => le32 s.chal[0] s.chal[1] s.chal[2] 0
  | .sec k => packWord s.sec k.val (by omega)
  | .id k => packWord s.id k.val (by omega)
  | .w i => s.w[i]
  | .h i => s.h[i]
  | .mac k => packWord s.mac k.val (by omega)
  | .dmac k => packWord s.dmac k.val (by omega)
  | .page k => packWord s.page k.val (by omega)
  | .fb k => packWord s.fb k.val (by omega)

/-- The word a read at `off` would return, without its effects: 0 at an offset that is misaligned or reserved
(20_memory.md R53, R55). -/
def windowWord (off : Nat) (s : State) : Word :=
  match regAt off with
  | none => 0
  | some r => readReg r s

/-- `FB[0..len-1]`, the bytes a CRC command covers (41_crc.md R100; the first `len` bytes, 90_conflicts.md C1). -/
def frameBytes (len : Nat) (s : State) : List Byte := s.fb.toList.take len

end Sys2Proof.Machine
end

