-- ==== Sys2Proof/Machine/Control.lean ====
section
/-! DEFINITION. The control commands (spec 44_control.md). -/

namespace Sys2Proof.Machine

/-- Every register of the block zero (44_control.md R161). What the host has pending, and what its last read
returned, are no registers of the block. -/
def State.cleared (s : State) : State :=
  { s with
    status := Status.cleared
    crc := 0
    paddr := 0
    chal := Vector.replicate 3 0
    sec := Vector.replicate 8 0
    id := Vector.replicate 8 0
    w := Vector.replicate 16 0
    h := Vector.replicate 5 0
    mac := Vector.replicate 20 0
    dmac := Vector.replicate 20 0
    page := Vector.replicate 32 0
    fb := Vector.replicate Config.fbBytes 0 }

/-- NOP (44_control.md R160): `complete()`. -/
def execNop (s : State) : Result := complete s

/-- CLEAR (44_control.md R161). -/
def execClear (s : State) : Result := .next s.cleared

end Sys2Proof.Machine
end

