-- ==== Sys2Proof/Machine/Crc.lean ====
section
/-! DEFINITION. The CRC unit (spec 41_crc.md): the CRC function over a list of bytes, and the two commands that
use it. -/

namespace Sys2Proof.Machine

/-- One bit step of the reflected CRC (41_crc.md R100). -/
def crcBitStep (poly c : Half) : Half :=
  if c.getLsbD 0 then (c >>> 1) ^^^ poly else c >>> 1

/-- `n` bit steps. -/
def crcBitSteps (poly : Half) : Nat → Half → Half
  | 0, c => c
  | n + 1, c => crcBitSteps poly n (crcBitStep poly c)

/-- One byte: exclusive or into the low half, then eight bit steps (41_crc.md R100). -/
def crcByteStep (poly c : Half) (b : Byte) : Half :=
  crcBitSteps poly 8 (c ^^^ b.setWidth 16)

/-- The CRC register after the bytes `bs`, from the value `c` (41_crc.md R100). -/
def crcOver (poly : Half) : Half → List Byte → Half
  | c, [] => c
  | c, b :: bs => crcOver poly (crcByteStep poly c b) bs

/-- `crc16(len)`, the CRC of FB[0..len-1] (41_crc.md R100). -/
def crc16 (len : Nat) (s : State) : Half :=
  crcOver Config.crcPolyRefl Config.crcInit (frameBytes len s)

/-- CRC.COMPUTE (41_crc.md R102), with the range check of R104. -/
def execCrcCompute (len : Nat) (s : State) : Result :=
  if len > Config.fbBytes then raiseErr .range s
  else complete { s with crc := crc16 len s }

/-- CRC.VALIDATE (41_crc.md R103), with the range check of R104. -/
def execCrcValidate (len i1 i2 : Nat) (s : State) : Result :=
  if h : len > Config.fbBytes ∨ i1 ≥ Config.fbBytes ∨ i2 ≥ Config.fbBytes then raiseErr .range s
  else
    complete
      { s with
        crc := crc16 len s
        status := { s.status with frameOk := frameOkFlag (crc16 len s) (s.fb[i1]'(by omega)) (s.fb[i2]'(by omega)) } }

end Sys2Proof.Machine
end

