-- ==== Sys2Proof/Machine/MacDigest.lean ====
section
/-! DEFINITION. The MAC unit's digest and fold (spec 42_mac_digest.md, the source's MacEngine). -/

namespace Sys2Proof.Machine

/-- The five working words (A, B, C, D, E) of the digest (42_mac_digest.md R121). -/
structure Work where
  a : Word
  b : Word
  c : Word
  d : Word
  e : Word
  deriving DecidableEq, Repr

/-- `IV[0..4]` (42_mac_digest.md R120). -/
def digestIV : Work := ⟨0x67452301, 0xEFCDAB89, 0x98BADCFE, 0x10325476, 0xC3D2E1F0⟩

/-- `K[i]` (42_mac_digest.md R120); the constant of round `t` is `K[t/20]`. -/
def digestK (i : Nat) : Word :=
  match i with
  | 0 => 0x5A827999
  | 1 => 0x6ED9EBA1
  | 2 => 0x8F1BBCDC
  | _ => 0xCA62C1D6

/-- `rotl_n(x)` (00_scope.md R8). -/
def rotl (n : Nat) (x : Word) : Word := (x <<< n) ||| (x >>> (32 - n))

/-- The round function `f(t, B, C, D)` (42_mac_digest.md R120). -/
def roundF (t : Nat) (b c d : Word) : Word :=
  if t ≤ 19 then (b &&& c) ||| (~~~b &&& d)
  else if t ≤ 39 then b ^^^ c ^^^ d
  else if t ≤ 59 then (b &&& c) ||| (b &&& d) ||| (c &&& d)
  else b ^^^ c ^^^ d

/-- Round `t` over the schedule word `wt` (42_mac_digest.md R121; the sum is modulo 2^32, R127). -/
def roundStep (t : Nat) (wt : Word) (v : Work) : Work where
  a := rotl 5 v.a + roundF t v.b v.c v.d + v.e + digestK (t / 20) + wt
  b := v.a
  c := rotl 30 v.b
  d := v.c
  e := v.d

/-- The rounds over the schedule words `ws`, the first of them round `t`. -/
def roundsFrom : Nat → List Word → Work → Work
  | _, [], v => v
  | t, wt :: ws, v => roundsFrom (t + 1) ws (roundStep t wt v)

/-- The next word of a schedule that has `ws` so far: `rotl_1(w[t-3] ^ w[t-8] ^ w[t-14] ^ w[t-16])` with
`t` the number of words (42_mac_digest.md R121). -/
def nextScheduleWord (ws : List Word) : Word :=
  rotl 1 (ws.getD (ws.length - 3) 0 ^^^ ws.getD (ws.length - 8) 0 ^^^ ws.getD (ws.length - 14) 0
    ^^^ ws.getD (ws.length - 16) 0)

/-- `n` further words of a schedule. -/
def extendSchedule : Nat → List Word → List Word
  | 0, ws => ws
  | n + 1, ws => extendSchedule n (ws ++ [nextScheduleWord ws])

/-- The 80 schedule words `w[0..79]` of a block: the block's own words, then as many further ones as are wanting
(42_mac_digest.md R121). -/
def schedule (blk : Vector Word 16) : List Word := extendSchedule (80 - blk.toList.length) blk.toList

/-- `sha1d(blk)` (42_mac_digest.md R121): 80 rounds from IV, with no addition of IV at the end (R124). -/
def sha1d (blk : Vector Word 16) : Work := roundsFrom 0 (schedule blk) digestIV

/-- The digest as the register H holds it: `H[0]` = A to `H[4]` = E (10_state.md R35). -/
def Work.toH (v : Work) : Vector Word 5 := #v[v.a, v.b, v.c, v.d, v.e]

/-- `fold(h)` (42_mac_digest.md R123): words in the order E, D, C, B, A, each least significant byte first. -/
def foldMac (h : Vector Word 5) : Vector Byte 20 :=
  #v[byteOf 0 h[4], byteOf 1 h[4], byteOf 2 h[4], byteOf 3 h[4],
     byteOf 0 h[3], byteOf 1 h[3], byteOf 2 h[3], byteOf 3 h[3],
     byteOf 0 h[2], byteOf 1 h[2], byteOf 2 h[2], byteOf 3 h[2],
     byteOf 0 h[1], byteOf 1 h[1], byteOf 2 h[1], byteOf 3 h[1],
     byteOf 0 h[0], byteOf 1 h[0], byteOf 2 h[0], byteOf 3 h[0]]

/-- The body of MAC.DIGEST without its `complete()` (42_mac_digest.md R122). -/
def State.digested (s : State) : State := { s with h := (sha1d s.w).toH }

/-- The body of MAC.FOLD without its `complete()` (42_mac_digest.md R123). -/
def State.folded (s : State) : State := { s with mac := foldMac s.h }

/-- MAC.DIGEST (42_mac_digest.md R122). -/
def execMacDigest (s : State) : Result := complete s.digested

/-- MAC.FOLD (42_mac_digest.md R123). -/
def execMacFold (s : State) : Result := complete s.folded

end Sys2Proof.Machine
end

