-- ==== Sys2Proof/Machine/MacVerify.lean ====
section
/-! DEFINITION. The MAC unit's block assembly and verification (spec 43_mac_verify.md, the source's
AuthVerifier). -/

namespace Sys2Proof.Machine

/-- The page type byte PT: `(0b1000 << 3) | ((PADDR >> 5) & 0b111)`, 8 bits (43_mac_verify.md R140). -/
def pageType (paddr : Half) : Byte := ((0b1000#16 <<< 3) ||| ((paddr >>> 5) &&& 0b111#16)).setWidth 8

/-- `be32(v[j], v[j+1], v[j+2], v[j+3])`, a big-endian group of four bytes of a register (43_mac_verify.md R140). -/
def beGroup {n : Nat} (v : Vector Byte n) (j : Nat) (h : j + 3 < n) : Word :=
  be32 v[j] v[j + 1] v[j + 2] v[j + 3]

/-- The 16-word MAC block (43_mac_verify.md R140, R144). -/
def macBlock (s : State) : Vector Word 16 :=
  #v[beGroup s.sec 0 (by omega),
     beGroup s.page 0 (by omega), beGroup s.page 4 (by omega), beGroup s.page 8 (by omega),
     beGroup s.page 12 (by omega), beGroup s.page 16 (by omega), beGroup s.page 20 (by omega),
     beGroup s.page 24 (by omega), beGroup s.page 28 (by omega),
     0xFFFFFFFF,
     be32 (pageType s.paddr) s.id[0] s.id[1] s.id[2],
     beGroup s.id 3 (by omega),
     beGroup s.sec 4 (by omega),
     be32 s.chal[0] s.chal[1] s.chal[2] 0x80,
     0x00000000,
     0x000001B8]

/-- The body of MAC.ASSEMBLE without its `complete()` (43_mac_verify.md R140). -/
def State.assembled (s : State) : State := { s with w := macBlock s }

/-- The body of MAC.COMPARE without its `complete()` (43_mac_verify.md R141). -/
def State.compared (s : State) : State := { s with status := { s.status with macEq := macEqFlag s.mac s.dmac } }

/-- The body of MAC.EXPECT without its `complete()` (43_mac_verify.md R142). -/
def State.expected (s : State) : State := s.assembled.digested.folded

/-- MAC.ASSEMBLE (43_mac_verify.md R140). -/
def execMacAssemble (s : State) : Result := complete s.assembled

/-- MAC.COMPARE (43_mac_verify.md R141). -/
def execMacCompare (s : State) : Result := complete s.compared

/-- MAC.EXPECT (43_mac_verify.md R142). -/
def execMacExpect (s : State) : Result := complete s.expected

/-- MAC.AUTH (43_mac_verify.md R143). -/
def execMacAuth (s : State) : Result := complete s.expected.compared

end Sys2Proof.Machine
end

