-- ==== Sys2Proof/Machine/HostAccess.lean ====
section
/-! DEFINITION. The host's accesses to the window (spec 40_host_access.md): the read, the write, and the command a
write to CMD executes (10_state.md R23, 30_encoding.md R74). -/

namespace Sys2Proof.Machine

/-- The command `i` executed (30_encoding.md R71). The decoder of command words never answers a bus access, which is
no command; it would be as illegal as any word that is none (30_encoding.md R75). -/
def runCommand (i : Instr) (s : State) : Result :=
  match i with
  | .nop => execNop s
  | .clear => execClear s
  | .macAssemble => execMacAssemble s
  | .macDigest => execMacDigest s
  | .macFold => execMacFold s
  | .macCompare => execMacCompare s
  | .macExpect => execMacExpect s
  | .macAuth => execMacAuth s
  | .crcCompute len => execCrcCompute len s
  | .crcValidate len i1 i2 => execCrcValidate len i1 i2 s
  | .regRd _ => raiseErr .illegalCmd s
  | .regWr _ _ => raiseErr .illegalCmd s

/-- A write of the word `v` to CMD (10_state.md R23, 30_encoding.md R74): the command runs, or the word is illegal
(60_exceptions.md R173). -/
def issueCommand (v : Word) (s : State) : Result :=
  match decodeCommand v with
  | .ok i => runCommand i s
  | .error _ => raiseErr .illegalCmd s

/-- A write of `data` to the register word `r` (40_host_access.md R91); STATUS, CRC, H and MAC are read-only
(60_exceptions.md R176); the unused high bits of PADDR and CHAL are dropped. -/
def writeReg (r : WindowReg) (data : Word) (s : State) : Result :=
  match r with
  | .cmd => issueCommand data s
  | .status => raiseErr .bus s
  | .crc => raiseErr .bus s
  | .paddr => .next { s with paddr := data.extractLsb' 0 16 }
  | .chal => .next { s with chal := #v[byteOf 0 data, byteOf 1 data, byteOf 2 data] }
  | .sec k => .next { s with sec := unpackWord s.sec k.val data (by omega) }
  | .id k => .next { s with id := unpackWord s.id k.val data (by omega) }
  | .w i => .next { s with w := s.w.set i.val data }
  | .h _ => raiseErr .bus s
  | .mac _ => raiseErr .bus s
  | .dmac k => .next { s with dmac := unpackWord s.dmac k.val data (by omega) }
  | .page k => .next { s with page := unpackWord s.page k.val data (by omega) }
  | .fb k => .next { s with fb := unpackWord s.fb k.val data (by omega) }

/-- REG.RD (40_host_access.md R90): a misaligned or reserved offset returns 0x00000000 and raises BUS. -/
def execRegRd (off : Nat) (s : State) : Result :=
  match regAt off with
  | none => raiseErr .bus (s.respond 0)
  | some r => .next (s.respond (readReg r s))

/-- REG.WR (40_host_access.md R91): a misaligned or reserved offset raises BUS and writes nothing. -/
def execRegWr (off : Nat) (data : Word) (s : State) : Result :=
  match regAt off with
  | none => raiseErr .bus s
  | some r => writeReg r data s

end Sys2Proof.Machine
end

