-- ==== Sys2Proof/Machine/Dispatch.lean ====
section
/-! DEFINITION. One arm per constructor of Instr, each one call of that instruction's meaning. -/

namespace Sys2Proof.Machine

def exec (i : Instr) (s : State) : Host.Outcome State Fault Refusal :=
  match i with
  | .nop => Sys2Proof.Machine.execNop s
  | .clear => Sys2Proof.Machine.execClear s
  | .macAssemble => Sys2Proof.Machine.execMacAssemble s
  | .macDigest => Sys2Proof.Machine.execMacDigest s
  | .macFold => Sys2Proof.Machine.execMacFold s
  | .macCompare => Sys2Proof.Machine.execMacCompare s
  | .macExpect => Sys2Proof.Machine.execMacExpect s
  | .macAuth => Sys2Proof.Machine.execMacAuth s
  | .crcCompute len => Sys2Proof.Machine.execCrcCompute len s
  | .crcValidate len i1 i2 => Sys2Proof.Machine.execCrcValidate len i1 i2 s
  | .regRd off => Sys2Proof.Machine.execRegRd off s
  | .regWr off data => Sys2Proof.Machine.execRegWr off data s

end Sys2Proof.Machine
end

