-- ==== Sys2Proof/Machine/Step.lean ====
section
/-! DEFINITION. One step of the machine: the host's next action, taken whole (spec 10_state.md R20,
70_reset_and_hazards.md R195, R198). -/

namespace Sys2Proof.Machine

/-- One step: the oldest pending access is executed to its end, or the pending hardware reset is taken; with
nothing pending the block, which "has no step of its own" (10_state.md R20), stays as it is (log 4). -/
def step (s : State) : Host.Outcome State Fault Refusal :=
  match s.takeAction with
  | none => .next s
  | some (.access t, s') => exec (decodeBus t) s'
  | some (.hardReset, s') => .next s'.hardReset

/-- `s` with the instruction whose bits are `w` as the host's next access (log 11): a bus transaction itself, a
command as the write of its word to CMD. -/
def State.withFetchWord (s : State) (nbits w : Nat) : State := s.issueNext (tableWord nbits w).toBus

end Sys2Proof.Machine
end

