-- ==== Sys2Proof/Machine/Pseudo.lean ====
section
/-! DEFINITION. The pseudo-instructions of spec 30_encoding.md R79, each expanded into the instructions a host issues
for it; none where the rule's condition fails. -/

namespace Sys2Proof.Machine

/-- The writes that load bytes into a packed register from the word at `off` on, missing bytes of the last word 0
(30_encoding.md R79, LDFB). -/
def packedWrites : Nat → List Byte → List Instr
  | _, [] => []
  | off, [b0] => [.regWr off (le32 b0 0 0 0)]
  | off, [b0, b1] => [.regWr off (le32 b0 b1 0 0)]
  | off, [b0, b1, b2] => [.regWr off (le32 b0 b1 b2 0)]
  | off, b0 :: b1 :: b2 :: b3 :: bs => .regWr off (le32 b0 b1 b2 b3) :: packedWrites (off + 4) bs

/-- The writes that load words from the word at `off` on (30_encoding.md R79, LDW). -/
def wordWrites : Nat → List Word → List Instr
  | _, [] => []
  | off, v :: vs => .regWr off v :: wordWrites (off + 4) vs

/-- `CRC.CHECK len` (30_encoding.md R79). -/
def crcCheck (len : Nat) : Option (List Instr) :=
  if len ≤ 254 then some [.crcValidate len len (len + 1)] else none

/-- `LDFB b0, …` (30_encoding.md R79). -/
def ldfb (bs : List Byte) : Option (List Instr) :=
  if bs.length ≤ Config.fbBytes then some (packedWrites 0x200 bs) else none

/-- `LDPAGE b0, …, b31` (30_encoding.md R79). -/
def ldpage (bs : List Byte) : Option (List Instr) :=
  if bs.length = 32 then some (packedWrites 0x100 bs) else none

/-- The registers LDBYTES loads (30_encoding.md R79). -/
inductive BytesReg where
  | sec
  | id
  | chal
  | dmac
  deriving DecidableEq, Repr

/-- The first window offset of the register and its size in bytes (20_memory.md R52). -/
def BytesReg.place (r : BytesReg) : Nat × Nat :=
  match r with
  | .sec => (0x018, 8)
  | .id => (0x020, 8)
  | .chal => (0x014, 3)
  | .dmac => (0x0C0, 20)

/-- `LDBYTES reg, b0, …` (30_encoding.md R79). -/
def ldbytes (r : BytesReg) (bs : List Byte) : Option (List Instr) :=
  if bs.length ≤ r.place.2 then some (packedWrites r.place.1 bs) else none

/-- `LDW v0, …, v15` (30_encoding.md R79). -/
def ldw (vs : List Word) : Option (List Instr) :=
  if vs.length = 16 then some (wordWrites 0x040 vs) else none

/-- `RDSTATUS` (30_encoding.md R79). -/
def rdstatus : List Instr := [.regRd 0x004]

/-- A sequence of instructions executed one after the other. -/
def execAll : List Instr → State → Result
  | [], s => .next s
  | i :: is, s =>
    match exec i s with
    | .next t => execAll is t
    | .fault r => .fault r
    | .refused r => .refused r

end Sys2Proof.Machine
end

