-- ==== Sys2Proof/Safety.lean ====
section
/-! DEFINITION. The terms the claims are stated in: which window offsets exist and who may write them, when an
instruction raises an error, how a command word stands for its command, and the invariant of STATUS. -/

namespace Sys2Proof.Machine

/-- A reserved window offset, from the table of spec 20_memory.md R52. -/
def reservedOffset (off : Nat) : Bool :=
  decide (0x00C ≤ off ∧ off < 0x010 ∨ 0x028 ≤ off ∧ off < 0x040 ∨ 0x094 ≤ off ∧ off < 0x0A0 ∨
    0x0B4 ≤ off ∧ off < 0x0C0 ∨ 0x0D4 ≤ off ∧ off < 0x100 ∨ 0x120 ≤ off ∧ off < 0x200 ∨
    0x200 + Config.fbBytes ≤ off)

/-- An offset inside a read-only register: STATUS, CRC, H or MAC (60_exceptions.md R176). -/
def readOnlyOffset (off : Nat) : Bool :=
  decide (0x004 ≤ off ∧ off < 0x00C ∨ 0x080 ≤ off ∧ off < 0x094 ∨ 0x0A0 ≤ off ∧ off < 0x0B4)

/-- An offset inside a register the host may write other than CMD: PADDR, CHAL, SEC, ID, W, DMAC, PAGE or FB
(10_state.md R22). -/
def dataOffset (off : Nat) : Bool :=
  decide (0x010 ≤ off ∧ off < 0x028 ∨ 0x040 ≤ off ∧ off < 0x080 ∨ 0x0C0 ≤ off ∧ off < 0x0D4 ∨
    0x100 ≤ off ∧ off < 0x120 ∨ 0x200 ≤ off ∧ off < 0x200 + Config.fbBytes)

/-- `s` with STATUS.ERR <- `c` and STATUS.ERR_STICKY <- 1 and nothing else changed (60_exceptions.md R171). -/
abbrev State.err (c : ErrCode) (s : State) : State := { s with status := { s.status with err := c, errSticky := true } }

/-- `s` with STATUS.ERR <- 0 and nothing else changed (60_exceptions.md R172). -/
abbrev State.noErr (s : State) : State := { s with status := { s.status with err := .none } }

/-- `i` raises `Err(c)` in `s`: run with STATUS.ERR at 0, it leaves the code `c`, not 0, there
(60_exceptions.md R170, R171). -/
def Raises (i : Instr) (s : State) (c : ErrCode) : Prop :=
  c ≠ .none ∧ ∃ t, exec i s.noErr = .next t ∧ t.status.err = c

/-- `i` is the command without operands that the word `op`, written to CMD, executes; every other word with that
opcode has a nonzero reserved field and raises ILLEGAL_CMD, changing nothing else (30_encoding.md R74). -/
def IssuedBy (op : Word) (i : Instr) : Prop :=
  (∀ s, exec (.regWr 0x000 op) s = exec i s) ∧
  ∀ v s, v.extractLsb' 0 8 = op.extractLsb' 0 8 → v ≠ op → exec (.regWr 0x000 v) s = .next (s.err .illegalCmd)

/-- The invariant of STATUS: an error code stands only where ERR_STICKY records it (60_exceptions.md R171, R172). -/
abbrev State.ErrIsSticky (s : State) : Prop := s.status.err ≠ .none → s.status.errSticky = true

end Sys2Proof.Machine
end

