-- ==== Sys2Proof/Certificates/Slice0/Obligations.lean ====
section
/-! DEFINITION. The statements for the provers, from the numbered rules of spec/. A statement of an instruction's
result gives its whole next state, so it is also the instruction's completion and its frame. -/

open Sys2Proof Sys2Proof.Machine

/-! ### Control commands (44_control.md) -/

/-- R160. NOP writes ERR <- 0 and nothing else; the word 0x00000000 issues it, and a word with its opcode and a
nonzero field is illegal. -/
def Obligations.NopOnlyClearsErr : Prop :=
  IssuedBy 0x00000000 .nop ∧
  ∀ s, exec .nop s = .next { s with status := { s.status with err := .none } }

/-- R161. CLEAR leaves every register of the block zero, STATUS included, and touches nothing of the host's side. -/
def Obligations.ClearZeroesEveryRegister : Prop :=
  IssuedBy 0x00000001 .clear ∧
  ∀ s, ∃ t, exec .clear s = .next t ∧
    t.status.toWord = 0x00000000 ∧ t.crc = 0 ∧ t.paddr = 0 ∧
    (∀ j, ∀ h : j < 3, t.chal[j] = 0) ∧
    (∀ j, ∀ h : j < 8, t.sec[j] = 0 ∧ t.id[j] = 0) ∧
    (∀ i, ∀ h : i < 16, t.w[i] = 0) ∧
    (∀ i, ∀ h : i < 5, t.h[i] = 0) ∧
    (∀ j, ∀ h : j < 20, t.mac[j] = 0 ∧ t.dmac[j] = 0) ∧
    (∀ j, ∀ h : j < 32, t.page[j] = 0) ∧
    (∀ j, ∀ h : j < Config.fbBytes, t.fb[j] = 0) ∧
    t.rdata = s.rdata ∧ t.pending = s.pending ∧ t.resets = s.resets

/-! ### Encoding (30_encoding.md) -/

/-- R74, R173. What a write of a word to CMD does, in the rule's own order: an unassigned opcode or a nonzero
reserved field raises ILLEGAL_CMD and changes nothing but ERR and ERR_STICKY; any other word executes its command
with `len` = A, `i1` = B, `i2` = C. -/
def Obligations.CommandWordsDecodeInRuleOrder : Prop :=
  ∀ (v : Word) (s : State),
    let op := v.extractLsb' 0 8
    let a := v.extractLsb' 8 8
    let b := v.extractLsb' 16 8
    let c := v.extractLsb' 24 8
    if op ∉ [0x00#8, 0x01#8, 0x10#8, 0x11#8, 0x12#8, 0x13#8, 0x14#8, 0x15#8, 0x20#8, 0x21#8] then
      exec (.regWr 0x000 v) s = .next (s.err .illegalCmd)
    else if op = 0x20#8 ∧ (b ≠ 0 ∨ c ≠ 0) then exec (.regWr 0x000 v) s = .next (s.err .illegalCmd)
    else if op ∉ [0x20#8, 0x21#8] ∧ (a ≠ 0 ∨ b ≠ 0 ∨ c ≠ 0) then
      exec (.regWr 0x000 v) s = .next (s.err .illegalCmd)
    else
      exec (.regWr 0x000 v) s = exec
        (if op = 0x00#8 then .nop else if op = 0x01#8 then .clear
         else if op = 0x10#8 then .macAssemble else if op = 0x11#8 then .macDigest
         else if op = 0x12#8 then .macFold else if op = 0x13#8 then .macCompare
         else if op = 0x14#8 then .macExpect else if op = 0x15#8 then .macAuth
         else if op = 0x20#8 then .crcCompute a.toNat
         else .crcValidate a.toNat b.toNat c.toNat) s

/-- R70, R71, R73, R77. Decoding the encoding of a well-formed instruction gives it back, every operand whole. -/
def Obligations.DecodeOfEncodeIsIdentity : Prop :=
  ∀ i : Instr, i.wellFormed = true → decode (encode i) = .ok i

/-- R70, R71, R74, R77. The other direction: a legal command word is the encoding of the command it decodes to, and
every bus transaction decodes to a well-formed access whose encoding has the same header, and for a write the same
data. -/
def Obligations.EncodeOfDecodeIsIdentity : Prop :=
  (∀ (v : Word) (i : Instr), decodeCommand v = .ok i →
    i.wellFormed = true ∧ i.isCommand = true ∧ encode i = .cmdw v) ∧
  ∀ t : BusTxn, (decodeBus t).wellFormed = true ∧ (decodeBus t).isCommand = false ∧
    (encode (decodeBus t)).toBus.hdr = t.hdr ∧
    (t.hdr.getLsbD 12 = true → (encode (decodeBus t)).toBus = t)

/-- R80. The words the spec writes out decode to the commands they stand for, and 0x00000111 is illegal; with it the
headers `we:off` of a read and a write (R77). -/
def Obligations.WordsOfTheSpecDecode : Prop :=
  decodeCommand 0x00000000 = .ok .nop ∧ decodeCommand 0x00000001 = .ok .clear ∧
  decodeCommand 0x00000015 = .ok .macAuth ∧ decodeCommand 0x00000920 = .ok (.crcCompute 9) ∧
  decodeCommand 0x0C0B0B21 = .ok (.crcValidate 11 11 12) ∧ decodeCommand 0x25242421 = .ok (.crcValidate 36 36 37) ∧
  decodeCommand 0x00000111 = .error .reservedField ∧
  decodeBus ⟨0b0000000000100#13, 0⟩ = .regRd 0x004 ∧
  decodeBus ⟨0b1001000000000#13, 0x0000200F⟩ = .regWr 0x200 0x0000200F

/-! ### The step (10_state.md R20, R23) -/

/-- A step runs the decoded instruction. When the host's next access is the encoding `e` of an instruction `i` as the
port carries it, the step is `exec i` at the state without that access; an illegal command word raises ILLEGAL_CMD.
That the accesses to come stand in the state, and that a step with none changes nothing, is the model's choice
(log 4); so is the place of a hardware reset among them (log 6). -/
def Obligations.StepRunsTheDecodedInstruction : Prop :=
  (∀ (s : State) (e : Encoded) (i : Instr) (rest : List HostAction),
    s.pending = .access e.toBus :: rest → decode e = .ok i → step s = exec i { s with pending := rest }) ∧
  (∀ (s : State) (e : Encoded) (x : DecodeError) (rest : List HostAction),
    s.pending = .access e.toBus :: rest → decode e = .error x →
      step s = .next (State.err .illegalCmd { s with pending := rest })) ∧
  (∀ s : State, s.pending = [] → step s = .next s) ∧
  (∀ (s : State) (rest : List HostAction), s.pending = .hardReset :: rest →
    step s = .next (State.afterReset (s.resets + 1) rest))

/-- R182. No instruction and no step faults, refuses or hangs, whatever the data: each answers a next state in the one
step, and every command completes (ERR 0) or raises (ERR the code raised). That a step takes exactly the first of the
host's actions from the state, or none where none is pending, is the model's choice (log 4); so is a hardware reset
as one of those actions (log 6). -/
def Obligations.EveryStepAnswersANextState : Prop :=
  (∀ (i : Instr) (s : State), ∃ t, exec i s = .next t ∧ t.pending = s.pending ∧
    (i.isCommand = true → t.status.err = .none ∨ ∃ c, Raises i s c ∧ t.status.err = c)) ∧
  ∀ s : State, ∃ t, step s = .next t ∧ t.pending = s.pending.tail

/-! ### STATUS (10_state.md R24 to R28) -/

/-- R171, R172. The invariant that STATUS.ERR is nonzero only where ERR_STICKY is 1 is kept by every step, from every
state that meets it. -/
def Obligations.StepKeepsErrorsSticky : Prop :=
  ∀ s t : State, s.ErrIsSticky → step s = .next t → t.ErrIsSticky

/-- R190. The invariant holds after reset. -/
def Obligations.ResetMeetsErrorsSticky : Prop := State.reset.ErrIsSticky

/-- R28. Every raise sets ERR_STICKY; CLEAR and hardware reset clear it; no other command and no bus access does. -/
def Obligations.StickyClearedOnlyByClearOrReset : Prop :=
  (∀ (i : Instr) (s t : State) (c : ErrCode), Raises i s c → exec i s = .next t → t.status.errSticky = true) ∧
  (∀ s : State, ∃ t, exec .clear s = .next t ∧ t.status.errSticky = false) ∧
  (∀ (s : State) (rest : List HostAction), s.pending = .hardReset :: rest →
    ∃ t, step s = .next t ∧ t.status.errSticky = false) ∧
  (∀ (i : Instr) (s t : State), i ≠ .clear → i ≠ .regWr 0x000 0x00000001 → exec i s = .next t →
    s.status.errSticky = true → t.status.errSticky = true)

/-- R172. A command that raises nothing ends with ERR <- 0 and does not clear ERR_STICKY; that CLEAR does is its own
effect (R161). -/
def Obligations.CompletingClearsErrAndKeepsSticky : Prop :=
  ∀ (i : Instr) (s t : State), i.isCommand = true → (∀ c, ¬ Raises i s c) → exec i s = .next t →
    t.status.err = .none ∧ (i ≠ .clear → t.status.errSticky = s.status.errSticky)

/-- R24. The word a read of STATUS returns: FRAME_OK at bit 0, MAC_EQ at bit 1, ERR at bits 7:4 with a code that
exists, ERR_STICKY at bit 8, and 0 at bits 3:2 and 31:9. -/
def Obligations.StatusReadsByFields : Prop :=
  ∀ s : State, ∃ v : Word, exec (.regRd 0x004) s = .next { s with rdata := some v } ∧
    v.getLsbD 0 = s.status.frameOk ∧ v.getLsbD 1 = s.status.macEq ∧
    v.extractLsb' 4 4 = (match s.status.err with | .none => 0 | .illegalCmd => 1 | .range => 2 | .bus => 3) ∧
    v.getLsbD 8 = s.status.errSticky ∧
    v.extractLsb' 2 2 = 0 ∧ v.extractLsb' 9 23 = 0

/-! ### Errors (60_exceptions.md) -/

/-- R171. An instruction that raises `Err(c)` changes STATUS.ERR and STATUS.ERR_STICKY and nothing else, and a bus
read that raises returns 0x00000000. -/
def Obligations.RaisingChangesOnlyErrAndSticky : Prop :=
  ∀ (i : Instr) (s : State) (c : ErrCode), Raises i s c →
    exec i s = .next { s with
      status := { s.status with err := c, errSticky := true }
      rdata := match i with
        | .regRd _ => some 0x00000000
        | _ => s.rdata }

/-- R174, R175 (and the rest of the table R170). Which instruction raises which code, and when. A CRC command: RANGE,
exactly when an operand is out of range. A bus access other than a write of CMD: BUS, exactly when the offset is
misaligned or reserved, or for a write read-only. A write of CMD: ILLEGAL_CMD exactly for a word that does not decode,
and else what its command raises. Any other command: nothing. -/
def Obligations.CausesOfEveryError : Prop :=
  ∀ (i : Instr) (s : State) (c : ErrCode),
    match i with
    | .crcCompute len => Raises i s c ↔ c = .range ∧ len > Config.fbBytes
    | .crcValidate len i1 i2 =>
        Raises i s c ↔ c = .range ∧ (len > Config.fbBytes ∨ i1 ≥ Config.fbBytes ∨ i2 ≥ Config.fbBytes)
    | .regRd off => Raises i s c ↔ c = .bus ∧ (off % 4 ≠ 0 ∨ reservedOffset off = true)
    | .regWr off v =>
        if off = 0x000 then
          match decodeCommand v with
          | .error _ => Raises i s c ↔ c = .illegalCmd
          | .ok cmd => Raises i s c ↔ Raises cmd s c
        else Raises i s c ↔ c = .bus ∧ (off % 4 ≠ 0 ∨ reservedOffset off = true ∨ readOnlyOffset off = true)
    | _ => ¬ Raises i s c

/-- R41. The writers of each register, complete: whatever register an instruction changes, the instruction is one the
table lists for it, and CLEAR and NOP write the values it gives. A write of CMD is its command or, for a word that is
none, changes ERR and ERR_STICKY alone, so the table is stated for the commands and for the bus accesses at every
other offset. -/
def Obligations.WritersOfEachRegister : Prop :=
  (∀ (v : Word) (s : State), (∃ cmd, cmd.isCommand = true ∧ exec (.regWr 0x000 v) s = exec cmd s) ∨
    exec (.regWr 0x000 v) s = .next (s.err .illegalCmd)) ∧
  (∀ s t : State, exec .clear s = .next t → t.status.toWord = 0 ∧ t.crc = 0 ∧ t.paddr = 0 ∧
    t.chal = Vector.replicate 3 0 ∧ t.sec = Vector.replicate 8 0 ∧ t.id = Vector.replicate 8 0 ∧
    t.dmac = Vector.replicate 20 0 ∧ t.page = Vector.replicate 32 0 ∧ t.fb = Vector.replicate Config.fbBytes 0 ∧
    t.w = Vector.replicate 16 0 ∧ t.h = Vector.replicate 5 0 ∧ t.mac = Vector.replicate 20 0) ∧
  (∀ s t : State, exec .nop s = .next t → t.status.err = .none) ∧
  ∀ (i : Instr) (s t : State), (∀ v, i ≠ .regWr 0x000 v) → exec i s = .next t →
    (t.status.frameOk ≠ s.status.frameOk → (∃ len i1 i2, i = .crcValidate len i1 i2) ∨ i = .clear) ∧
    (t.status.macEq ≠ s.status.macEq → i = .macCompare ∨ i = .macAuth ∨ i = .clear) ∧
    (t.status.err ≠ s.status.err → i.isCommand = true ∨ Raises i s .bus) ∧
    (t.status.errSticky ≠ s.status.errSticky → (∃ c, Raises i s c) ∨ i = .clear) ∧
    (t.crc ≠ s.crc → (∃ len, i = .crcCompute len) ∨ (∃ len i1 i2, i = .crcValidate len i1 i2) ∨ i = .clear) ∧
    (t.paddr ≠ s.paddr → (∃ v, i = .regWr 0x010 v) ∨ i = .clear) ∧
    (t.chal ≠ s.chal → (∃ v, i = .regWr 0x014 v) ∨ i = .clear) ∧
    (t.sec ≠ s.sec → (∃ k v, k < 2 ∧ i = .regWr (0x018 + 4 * k) v) ∨ i = .clear) ∧
    (t.id ≠ s.id → (∃ k v, k < 2 ∧ i = .regWr (0x020 + 4 * k) v) ∨ i = .clear) ∧
    (t.dmac ≠ s.dmac → (∃ k v, k < 5 ∧ i = .regWr (0x0C0 + 4 * k) v) ∨ i = .clear) ∧
    (t.page ≠ s.page → (∃ k v, k < 8 ∧ i = .regWr (0x100 + 4 * k) v) ∨ i = .clear) ∧
    (t.fb ≠ s.fb → (∃ k v, k < Config.fbBytes / 4 ∧ i = .regWr (0x200 + 4 * k) v) ∨ i = .clear) ∧
    (t.w ≠ s.w → (∃ k v, k < 16 ∧ i = .regWr (0x040 + 4 * k) v) ∨
      i = .macAssemble ∨ i = .macExpect ∨ i = .macAuth ∨ i = .clear) ∧
    (t.h ≠ s.h → i = .macDigest ∨ i = .macExpect ∨ i = .macAuth ∨ i = .clear) ∧
    (t.mac ≠ s.mac → i = .macFold ∨ i = .macExpect ∨ i = .macAuth ∨ i = .clear)

/-! ### Host access (40_host_access.md, 20_memory.md) -/

/-- R90. What a read at each offset of the window returns; it changes nothing, but for a misaligned or reserved offset,
which returns 0 and raises BUS. -/
def Obligations.BusReadReturnsTheRegister : Prop :=
  ∀ s : State,
    (∀ off, off % 4 ≠ 0 ∨ reservedOffset off = true →
      exec (.regRd off) s = .next (State.err .bus { s with rdata := some 0x00000000 })) ∧
    exec (.regRd 0x000) s = .next { s with rdata := some 0x00000000 } ∧
    exec (.regRd 0x004) s = .next { s with rdata := some s.status.toWord } ∧
    exec (.regRd 0x008) s = .next { s with rdata := some (0#16 ++ s.crc) } ∧
    exec (.regRd 0x010) s = .next { s with rdata := some (0#16 ++ s.paddr) } ∧
    exec (.regRd 0x014) s = .next { s with rdata := some (0#8 ++ s.chal[2] ++ s.chal[1] ++ s.chal[0]) } ∧
    (∀ k, ∀ h : k < 2, exec (.regRd (0x018 + 4 * k)) s = .next { s with
      rdata := some (s.sec[4 * k + 3] ++ s.sec[4 * k + 2] ++ s.sec[4 * k + 1] ++ s.sec[4 * k]) }) ∧
    (∀ k, ∀ h : k < 2, exec (.regRd (0x020 + 4 * k)) s = .next { s with
      rdata := some (s.id[4 * k + 3] ++ s.id[4 * k + 2] ++ s.id[4 * k + 1] ++ s.id[4 * k]) }) ∧
    (∀ i, ∀ h : i < 16, exec (.regRd (0x040 + 4 * i)) s = .next { s with rdata := some s.w[i] }) ∧
    (∀ i, ∀ h : i < 5, exec (.regRd (0x080 + 4 * i)) s = .next { s with rdata := some s.h[i] }) ∧
    (∀ k, ∀ h : k < 5, exec (.regRd (0x0A0 + 4 * k)) s = .next { s with
      rdata := some (s.mac[4 * k + 3] ++ s.mac[4 * k + 2] ++ s.mac[4 * k + 1] ++ s.mac[4 * k]) }) ∧
    (∀ k, ∀ h : k < 5, exec (.regRd (0x0C0 + 4 * k)) s = .next { s with
      rdata := some (s.dmac[4 * k + 3] ++ s.dmac[4 * k + 2] ++ s.dmac[4 * k + 1] ++ s.dmac[4 * k]) }) ∧
    (∀ k, ∀ h : k < 8, exec (.regRd (0x100 + 4 * k)) s = .next { s with
      rdata := some (s.page[4 * k + 3] ++ s.page[4 * k + 2] ++ s.page[4 * k + 1] ++ s.page[4 * k]) }) ∧
    (∀ k, ∀ h : 4 * k + 3 < Config.fbBytes, exec (.regRd (0x200 + 4 * k)) s = .next { s with
      rdata := some (s.fb[4 * k + 3] ++ s.fb[4 * k + 2] ++ s.fb[4 * k + 1] ++ s.fb[4 * k]) })

/-- R91. What a write at each offset of the window does: CMD executes the word (an illegal one raises ILLEGAL_CMD), a
misaligned, reserved or read-only offset raises BUS, and a data register takes the bytes of the word, and nothing else
changes. -/
def Obligations.BusWriteStoresTheWord : Prop :=
  ∀ (s : State) (v : Word),
    (∀ off, off % 4 ≠ 0 ∨ reservedOffset off = true ∨ readOnlyOffset off = true →
      exec (.regWr off v) s = .next (s.err .bus)) ∧
    (∀ i, decode (.cmdw v) = .ok i → exec (.regWr 0x000 v) s = exec i s) ∧
    (∀ x, decode (.cmdw v) = .error x → exec (.regWr 0x000 v) s = .next (s.err .illegalCmd)) ∧
    exec (.regWr 0x010 v) s = .next { s with paddr := v.extractLsb' 0 16 } ∧
    exec (.regWr 0x014 v) s = .next { s with chal := #v[v.extractLsb' 0 8, v.extractLsb' 8 8, v.extractLsb' 16 8] } ∧
    (∀ k, k < 2 → exec (.regWr (0x018 + 4 * k) v) s = .next { s with
      sec := Vector.ofFn fun j => if j.val / 4 = k then v.extractLsb' (8 * (j.val % 4)) 8 else s.sec[j] }) ∧
    (∀ k, k < 2 → exec (.regWr (0x020 + 4 * k) v) s = .next { s with
      id := Vector.ofFn fun j => if j.val / 4 = k then v.extractLsb' (8 * (j.val % 4)) 8 else s.id[j] }) ∧
    (∀ i, i < 16 → exec (.regWr (0x040 + 4 * i) v) s = .next { s with
      w := Vector.ofFn fun j => if j.val = i then v else s.w[j] }) ∧
    (∀ k, k < 5 → exec (.regWr (0x0C0 + 4 * k) v) s = .next { s with
      dmac := Vector.ofFn fun j => if j.val / 4 = k then v.extractLsb' (8 * (j.val % 4)) 8 else s.dmac[j] }) ∧
    (∀ k, k < 8 → exec (.regWr (0x100 + 4 * k) v) s = .next { s with
      page := Vector.ofFn fun j => if j.val / 4 = k then v.extractLsb' (8 * (j.val % 4)) 8 else s.page[j] }) ∧
    (∀ k, 4 * k + 3 < Config.fbBytes → exec (.regWr (0x200 + 4 * k) v) s = .next { s with
      fb := Vector.ofFn fun j => if j.val / 4 = k then v.extractLsb' (8 * (j.val % 4)) 8 else s.fb[j] })

/-- R176. A write to STATUS, CRC, H or MAC raises BUS and the value is discarded; a write of CMD never raises BUS; a
read of CMD returns 0 and raises nothing. -/
def Obligations.ReadOnlyRegistersRefuseWrites : Prop :=
  (∀ (s : State) (v : Word), exec (.regWr 0x004 v) s = .next (s.err .bus) ∧
    exec (.regWr 0x008 v) s = .next (s.err .bus) ∧
    (∀ i, i < 5 → exec (.regWr (0x080 + 4 * i) v) s = .next (s.err .bus)) ∧
    (∀ k, k < 5 → exec (.regWr (0x0A0 + 4 * k) v) s = .next (s.err .bus))) ∧
  (∀ (s : State) (v : Word), ¬ Raises (.regWr 0x000 v) s .bus) ∧
  (∀ s : State, exec (.regRd 0x000) s = .next { s with rdata := some 0x00000000 })

/-- R53. An access at a reserved offset, each range of the map R52 written out, is a bus error: the read returns 0,
the write changes no register. -/
def Obligations.ReservedOffsetsAreBusErrors : Prop :=
  ∀ (off : Nat) (v : Word) (s : State),
    (0x00C ≤ off ∧ off ≤ 0x00F) ∨ (0x028 ≤ off ∧ off ≤ 0x03F) ∨ (0x094 ≤ off ∧ off ≤ 0x09F) ∨
      (0x0B4 ≤ off ∧ off ≤ 0x0BF) ∨ (0x0D4 ≤ off ∧ off ≤ 0x0FF) ∨ (0x120 ≤ off ∧ off ≤ 0x1FF) ∨
      (0x200 + Config.fbBytes ≤ off ∧ off ≤ 0xFFF) →
    exec (.regRd off) s = .next (State.err .bus { s with rdata := some 0x00000000 }) ∧
    exec (.regWr off v) s = .next (s.err .bus)

/-- R55. A misaligned access is a bus error whatever register its offset falls in. -/
def Obligations.MisalignedAccessesAreBusErrors : Prop :=
  ∀ (off : Nat) (v : Word) (s : State), off % 4 ≠ 0 →
    exec (.regRd off) s = .next (State.err .bus { s with rdata := some 0x00000000 }) ∧
    exec (.regWr off v) s = .next (s.err .bus)

/-- R30, R31, R60. A word written to a register the host may write is read back, less the bits the register does not
have: bits 31:16 of PADDR and 31:24 of CHAL read 0. -/
def Obligations.WriteThenReadReturnsTheWord : Prop :=
  ∀ (off : Nat) (v : Word) (s : State), off % 4 = 0 → dataOffset off = true →
    ∃ t, exec (.regWr off v) s = .next t ∧
      exec (.regRd off) t = .next { t with
        rdata := some (if off = 0x010 then v &&& 0x0000FFFF else if off = 0x014 then v &&& 0x00FFFFFF else v) }

/-- R60. A write to a data register "stores the value and has no other effect": the word at every other offset of the
window reads as before. -/
def Obligations.WriteLeavesEveryOtherWord : Prop :=
  ∀ (off other : Nat) (v : Word) (s : State), off % 4 = 0 → dataOffset off = true → other ≠ off →
    ∃ t, exec (.regWr off v) s = .next t ∧ windowWord other t = windowWord other s

/-- R60, R191. Reads are idempotent, so that a register nobody has written reads the same twice, and writes of a data
register are idempotent: the second of two equal accesses leaves what the first left. -/
def Obligations.AccessesAreIdempotent : Prop :=
  (∀ (off : Nat) (s : State), ∃ t, exec (.regRd off) s = .next t ∧ exec (.regRd off) t = .next t) ∧
  ∀ (off : Nat) (v : Word) (s : State), off ≠ 0x000 →
    ∃ t, exec (.regWr off v) s = .next t ∧ exec (.regWr off v) t = .next t

/-- R92. To change one byte of FB the host writes its word, and the three other bytes of that word take the written
word's other lanes; no other byte of FB changes. -/
def Obligations.FrameByteIsWrittenByItsWord : Prop :=
  ∀ (j : Nat) (v : Word) (s : State), j < Config.fbBytes →
    ∃ t, exec (.regWr (0x200 + 4 * (j / 4)) v) s = .next t ∧
      ∀ l, ∀ h : l < Config.fbBytes,
        t.fb[l] = if l / 4 = j / 4 then v.extractLsb' (8 * (l % 4)) 8 else s.fb[l]

/-! ### CRC unit (41_crc.md) -/

/-- R102. CRC.COMPUTE: RANGE when `len` > FB_BYTES, else CRC <- crc16(len), 0x0000 for `len` 0, and ERR <- 0, and
nothing else; the word `len<<8 | 0x20` issues it, and a nonzero B or C is illegal. (What crc16 computes rests on the
spec's own choices D9 and D10, log 2 and log 8; CrcFollowsTheBitRecurrence says it.) -/
def Obligations.CrcComputeLeavesTheCrc : Prop :=
  (∀ (len : Nat) (s : State), exec (.crcCompute len) s =
    if len > Config.fbBytes then .next (s.err .range)
    else .next { s with crc := crc16 len s, status := { s.status with err := .none } }) ∧
  (∀ s : State, exec (.crcCompute 0) s = .next { s with crc := 0x0000, status := { s.status with err := .none } }) ∧
  (∀ (len : Byte) (s : State), exec (.regWr 0x000 (0#8 ++ 0#8 ++ len ++ 0x20#8)) s = exec (.crcCompute len.toNat) s) ∧
  (∀ (b c len : Byte) (s : State), b ≠ 0 ∨ c ≠ 0 →
    exec (.regWr 0x000 (c ++ b ++ len ++ 0x20#8)) s = .next (s.err .illegalCmd))

/-- R103. CRC.VALIDATE: RANGE when an operand is out of range, else CRC <- crc16(len), FRAME_OK <- whether FB[i1] and
FB[i2] are the low and the high byte of the complement, ERR <- 0, and nothing else; a mismatch is no error. (Which
byte is the low one is the spec's own choice D11, log 8.) -/
def Obligations.CrcValidateComparesTheCrcBytes : Prop :=
  (∀ (len i1 i2 : Nat) (s : State), len > Config.fbBytes ∨ i1 ≥ Config.fbBytes ∨ i2 ≥ Config.fbBytes →
    exec (.crcValidate len i1 i2) s = .next (s.err .range)) ∧
  (∀ (len i1 i2 : Nat) (s : State), len ≤ Config.fbBytes → ∀ h1 : i1 < Config.fbBytes, ∀ h2 : i2 < Config.fbBytes,
    exec (.crcValidate len i1 i2) s = .next { s with
      crc := crc16 len s
      status := { s.status with
        frameOk := decide (s.fb[i1] = (~~~ crc16 len s).extractLsb' 0 8 ∧ s.fb[i2] = (~~~ crc16 len s).extractLsb' 8 8)
        err := .none } }) ∧
  (∀ (len i1 i2 : Byte) (s : State),
    exec (.regWr 0x000 (i2 ++ i1 ++ len ++ 0x21#8)) s = exec (.crcValidate len.toNat i1.toNat i2.toNat) s)

/-- R104. With FB_BYTES = 64, `len` 65 to 255 and `i1`, `i2` 64 to 255 raise RANGE and change only ERR and ERR_STICKY;
every other operand value completes. -/
def Obligations.CrcRangeCheck : Prop :=
  ∀ s : State,
    (∀ len, 65 ≤ len → len ≤ 255 → exec (.crcCompute len) s = .next (s.err .range)) ∧
    (∀ len i1 i2, len ≤ 255 → i1 ≤ 255 → i2 ≤ 255 → 65 ≤ len ∨ 64 ≤ i1 ∨ 64 ≤ i2 →
      exec (.crcValidate len i1 i2) s = .next (s.err .range)) ∧
    (∀ len, len ≤ 64 → ∃ t, exec (.crcCompute len) s = .next t ∧ t.status.err = .none) ∧
    (∀ len i1 i2, len ≤ 64 → i1 ≤ 63 → i2 ≤ 63 →
      ∃ t, exec (.crcValidate len i1 i2) s = .next t ∧ t.status.err = .none)

/-- R100. The CRC of no byte is 0x0000, and one byte more is an exclusive or into the low half and eight bit steps with
the reflected constant 0xA001. (That constant and the initial value are the spec's own, "from general knowledge", and
the model's choice of open parameters, log 2 and log 8.) -/
def Obligations.CrcFollowsTheBitRecurrence : Prop :=
  ∀ s : State, crc16 0 s = 0x0000#16 ∧
    ∀ j, ∀ h : j < Config.fbBytes, crc16 (j + 1) s =
      (fun c : Half => if c.getLsbD 0 = true then (c >>> 1) ^^^ 0xA001#16 else c >>> 1)^[8]
        (crc16 j s ^^^ (0#8 ++ s.fb[j]))

/-- R105 (a). A frame of `len` bytes followed by its two complemented CRC bytes has the CRC 0xB001, the fixed residue.
(A property the spec derives; it rests on log 2.) -/
def Obligations.FrameWithItsCrcHasTheResidue : Prop :=
  ∀ (len : Nat) (s : State), ∀ h : len + 2 ≤ Config.fbBytes,
    s.fb[len] = (~~~ crc16 len s).extractLsb' 0 8 → s.fb[len + 1] = (~~~ crc16 len s).extractLsb' 8 8 →
    ∃ t, exec (.crcCompute (len + 2)) s = .next t ∧ t.crc = 0xB001#16

/-- R105 (b). Where CRC.VALIDATE accepts a frame of `len` bytes and its two CRC bytes, it rejects that frame with any
one bit of the data or of the CRC bytes flipped. (A property the spec derives; it rests on log 2.) -/
def Obligations.SingleBitCorruptionIsRejected : Prop :=
  ∀ (len j k : Nat) (s t : State), ∀ h : len + 2 ≤ Config.fbBytes, ∀ hj : j < len + 2, k < 8 →
    exec (.crcValidate len len (len + 1)) s = .next t → t.status.frameOk = true →
    ∃ u, exec (.crcValidate len len (len + 1))
        { s with fb := s.fb.set j (s.fb[j] ^^^ (1#8 <<< k)) } = .next u ∧
      u.status.frameOk = false ∧ u.status.err = .none

/-- R193. The CRC commands read FB[0..len-1], and CRC.VALIDATE FB[i1] and FB[i2] too: states that agree on those bytes
get the same CRC and the same FRAME_OK, whatever else they hold. -/
def Obligations.CrcReadsOnlyTheFrame : Prop :=
  ∀ (len i1 i2 : Nat) (s t s' t' : State), len ≤ Config.fbBytes → ∀ h1 : i1 < Config.fbBytes, ∀ h2 : i2 < Config.fbBytes,
    (∀ j, j < len → ∀ hj : j < Config.fbBytes, s.fb[j] = t.fb[j]) → s.fb[i1] = t.fb[i1] → s.fb[i2] = t.fb[i2] →
    exec (.crcValidate len i1 i2) s = .next s' → exec (.crcValidate len i1 i2) t = .next t' →
    s'.crc = t'.crc ∧ s'.status.frameOk = t'.status.frameOk

/-! ### Digest and fold (42_mac_digest.md) -/

/-- R121, R122, R124. MAC.DIGEST: there is a schedule `w` that begins with W and follows the rule's recurrence, and a
sequence of working words from IV, one per round, and H becomes the words after round 79, with no IV added; ERR <- 0
and nothing else changes. (The round's update is the standard one, "from general knowledge" in the spec, log 8.) -/
def Obligations.DigestRunsEightyRounds : Prop :=
  IssuedBy 0x00000011 .macDigest ∧
  ∀ s : State, ∃ w A B C D E : Nat → Word,
    (∀ t, ∀ h : t < 16, w t = s.w[t]) ∧
    (∀ t, 16 ≤ t → t < 80 →
      w t = BitVec.rotateLeft (w (t - 3) ^^^ w (t - 8) ^^^ w (t - 14) ^^^ w (t - 16)) 1) ∧
    A 0 = 0x67452301 ∧ B 0 = 0xEFCDAB89 ∧ C 0 = 0x98BADCFE ∧ D 0 = 0x10325476 ∧ E 0 = 0xC3D2E1F0 ∧
    (∀ t, t < 80 →
      A (t + 1) = BitVec.rotateLeft (A t) 5 +
        (if t < 20 then (B t &&& C t) ||| (~~~ B t &&& D t)
         else if 40 ≤ t ∧ t < 60 then (B t &&& C t) ||| (B t &&& D t) ||| (C t &&& D t)
         else B t ^^^ C t ^^^ D t) + E t +
        (if t < 20 then 0x5A827999 else if t < 40 then 0x6ED9EBA1 else if t < 60 then 0x8F1BBCDC else 0xCA62C1D6) +
        w t ∧
      B (t + 1) = A t ∧ C (t + 1) = BitVec.rotateLeft (B t) 30 ∧ D (t + 1) = C t ∧ E (t + 1) = D t) ∧
    exec .macDigest s = .next { s with
      h := #v[A 80, B 80, C 80, D 80, E 80], status := { s.status with err := .none } }

/-- R124. The block that pads "abc" has the digest the rule gives, and adding IV word by word gives the standard
SHA-1 of "abc", so H is the working state and not that sum. -/
def Obligations.AbcDigestOmitsTheInitialState : Prop :=
  ∀ s : State,
    exec .macDigest { s with w := #v[0x61626380, 0, 0, 0, 0, 0, 0, 0, 0, 0, 0, 0, 0, 0, 0, 0x00000018] } =
      .next { s with
        w := #v[0x61626380, 0, 0, 0, 0, 0, 0, 0, 0, 0, 0, 0, 0, 0, 0, 0x00000018]
        h := #v[0x42541B35, 0x5738D5E1, 0x21834873, 0x681E6DF6, 0xD8FDF6AD]
        status := { s.status with err := .none } } ∧
    (0x42541B35 + 0x67452301 = 0xA9993E36#32 ∧ 0x5738D5E1 + 0xEFCDAB89 = 0x4706816A#32 ∧
      0x21834873 + 0x98BADCFE = 0xBA3E2571#32 ∧ 0x681E6DF6 + 0x10325476 = 0x7850C26C#32 ∧
      0xD8FDF6AD + 0xC3D2E1F0 = 0x9CD0D89D#32)

/-- R123. MAC.FOLD: MAC[4k+j] is byte j, counted from the least significant, of H[4-k], so the words come E, D, C, B,
A; ERR <- 0 and nothing else changes. -/
def Obligations.FoldEmitsTheWordsInReverse : Prop :=
  IssuedBy 0x00000012 .macFold ∧
  ∀ s : State, ∃ m : Vector Byte 20,
    (∀ k j, ∀ hk : k < 5, ∀ hj : j < 4, m[4 * k + j] = (s.h[4 - k]).extractLsb' (8 * j) 8) ∧
    exec .macFold s = .next { s with mac := m, status := { s.status with err := .none } }

/-- R36. After a fold the window word at 0x0A0 + 4k is H[4-k]. -/
def Obligations.FoldedWordIsTheDigestWord : Prop :=
  ∀ s : State, ∃ t, exec .macFold s = .next t ∧
    ∀ k, ∀ h : k < 5, exec (.regRd (0x0A0 + 4 * k)) t = .next { t with rdata := some (s.h[4 - k]) }

/-- R126. H and MAC are results, not views: a write of a word of W leaves both, MAC.ASSEMBLE leaves both, and
MAC.DIGEST leaves MAC, until their own commands run. -/
def Obligations.DigestAndMacAreNotViews : Prop :=
  (∀ (i : Nat) (v : Word) (s : State), i < 16 →
    ∃ t, exec (.regWr (0x040 + 4 * i) v) s = .next t ∧ t.h = s.h ∧ t.mac = s.mac) ∧
  (∀ s : State, ∃ t, exec .macAssemble s = .next t ∧ t.h = s.h ∧ t.mac = s.mac) ∧
  (∀ s : State, ∃ t, exec .macDigest s = .next t ∧ t.mac = s.mac)

/-! ### Block assembly and verification (43_mac_verify.md) -/

/-- R140. MAC.ASSEMBLE: the sixteen words of the MAC block, byte by byte; ERR <- 0 and nothing else changes. (That
W[10] to W[13] are big-endian like W[0] to W[8] is the spec's own choice D14, log 8.) -/
def Obligations.AssembleBuildsTheMacBlock : Prop :=
  IssuedBy 0x00000010 .macAssemble ∧
  ∀ s : State, ∃ w : Vector Word 16,
    w[0] = s.sec[0] ++ s.sec[1] ++ s.sec[2] ++ s.sec[3] ∧
    (∀ k, ∀ h : k < 8,
      w[1 + k] = s.page[4 * k] ++ s.page[4 * k + 1] ++ s.page[4 * k + 2] ++ s.page[4 * k + 3]) ∧
    w[9] = 0xFFFFFFFF ∧
    w[10] = 0b01000#5 ++ s.paddr.extractLsb' 5 3 ++ s.id[0] ++ s.id[1] ++ s.id[2] ∧
    w[11] = s.id[3] ++ s.id[4] ++ s.id[5] ++ s.id[6] ∧
    w[12] = s.sec[4] ++ s.sec[5] ++ s.sec[6] ++ s.sec[7] ∧
    w[13] = s.chal[0] ++ s.chal[1] ++ s.chal[2] ++ 0x80#8 ∧
    w[14] = 0x00000000 ∧
    w[15] = 0x000001B8 ∧
    exec .macAssemble s = .next { s with w := w, status := { s.status with err := .none } }

/-- R58. The host packs little-endian and the block is assembled big-endian: W[1+k] is the byte reversal of the window
word at 0x100 + 4k, and W[0] and W[12] those of the two words of SEC. -/
def Obligations.AssembledWordsAreByteReversed : Prop :=
  ∀ s : State, ∃ t, exec .macAssemble s = .next t ∧
    (∀ k, ∀ h : k < 8, t.w[1 + k] =
      (let x := windowWord (0x100 + 4 * k) s
       x.extractLsb' 0 8 ++ x.extractLsb' 8 8 ++ x.extractLsb' 16 8 ++ x.extractLsb' 24 8)) ∧
    t.w[0] =
      (let x := windowWord 0x018 s
       x.extractLsb' 0 8 ++ x.extractLsb' 8 8 ++ x.extractLsb' 16 8 ++ x.extractLsb' 24 8) ∧
    t.w[12] =
      (let x := windowWord 0x01C s
       x.extractLsb' 0 8 ++ x.extractLsb' 8 8 ++ x.extractLsb' 16 8 ++ x.extractLsb' 24 8)

/-- R144. Every command that assembles the block writes the same fixed constants, in every state: W[9], the page class
`0b1000` (the five top bits of W[10], with the field's leading zero), the low byte of W[13], W[14] and W[15]. -/
def Obligations.MacBlockConstantsAreFixed : Prop :=
  ∀ (i : Instr) (s : State), i = .macAssemble ∨ i = .macExpect ∨ i = .macAuth →
    ∃ t, exec i s = .next t ∧ t.w[9] = 0xFFFFFFFF ∧ (t.w[10]).extractLsb' 27 5 = 0b01000#5 ∧
      (t.w[13]).extractLsb' 0 8 = 0x80#8 ∧ t.w[14] = 0 ∧ t.w[15] = 0x1B8

/-- R141. MAC.COMPARE: MAC_EQ is 1 exactly when all twenty bytes of MAC and DMAC are equal; ERR <- 0, and nothing else
changes, so a mismatch is no error. -/
def Obligations.CompareIsByteExact : Prop :=
  IssuedBy 0x00000013 .macCompare ∧
  ∀ s : State, ∃ eq : Bool,
    (eq = true ↔ ∀ j, ∀ h : j < 20, s.mac[j] = s.dmac[j]) ∧
    exec .macCompare s = .next { s with status := { s.status with macEq := eq, err := .none } }

/-- R142. MAC.EXPECT ends in the state that MAC.ASSEMBLE, MAC.DIGEST and MAC.FOLD issued in that order leave. -/
def Obligations.ExpectIsAssembleDigestFold : Prop :=
  IssuedBy 0x00000014 .macExpect ∧
  ∀ s : State, ∃ a d f, exec .macAssemble s = .next a ∧ exec .macDigest a = .next d ∧ exec .macFold d = .next f ∧
    exec .macExpect s = .next f ∧
    f = { s with w := f.w, h := f.h, mac := f.mac, status := { s.status with err := .none } }

/-- R143. MAC.AUTH ends in the state that MAC.ASSEMBLE, MAC.DIGEST, MAC.FOLD and MAC.COMPARE leave: W, H and MAC
written, MAC_EQ the comparison of the MAC just computed with DMAC, ERR <- 0. -/
def Obligations.AuthIsExpectThenCompare : Prop :=
  IssuedBy 0x00000015 .macAuth ∧
  ∀ s : State, ∃ e c, exec .macExpect s = .next e ∧ exec .macCompare e = .next c ∧ exec .macAuth s = .next c ∧
    (c.status.macEq = true ↔ c.mac = s.dmac) ∧
    c = { s with w := c.w, h := c.h, mac := c.mac, status := { s.status with macEq := c.status.macEq, err := .none } }

/-- R193, and the corner cases of R140. The MAC depends on PADDR[7:5], PAGE, SEC, CHAL, ID[0..6] and, for the
comparison, DMAC alone: states that agree on those, whatever else they hold (PADDR's other bits, ID[7], FB, the old W,
H and MAC, STATUS), get the same W, H, MAC and MAC_EQ from MAC.AUTH. -/
def Obligations.AuthReadsOnlyItsInputs : Prop :=
  ∀ s t s' t' : State,
    s.paddr.extractLsb' 5 3 = t.paddr.extractLsb' 5 3 → s.page = t.page → s.sec = t.sec → s.chal = t.chal →
    (∀ j, ∀ h : j < 7, s.id[j] = t.id[j]) → s.dmac = t.dmac →
    exec .macAuth s = .next s' → exec .macAuth t = .next t' →
    s'.w = t'.w ∧ s'.h = t'.h ∧ s'.mac = t'.mac ∧ s'.status.macEq = t'.status.macEq

/-! ### Reset (70_reset_and_hazards.md) -/

/-- R190, R191. After reset STATUS is zero, CMD reads 0, and the block waits for the host's first access; a hardware
reset from any state leaves the same, with the host's further actions standing. Every other register holds the bits
`Config.resetDraw` names, of which nothing is known (the model's form of the spec's `draw()`, log 3). -/
def Obligations.ResetLeavesStatusZeroAndDataDrawn : Prop :=
  State.reset.status.toWord = 0x00000000 ∧ windowWord 0x000 State.reset = 0 ∧ step State.reset = .next State.reset ∧
  ∀ (s : State) (rest : List HostAction), s.pending = .hardReset :: rest →
    ∃ t, step s = .next t ∧ t.status.toWord = 0x00000000 ∧ windowWord 0x000 t = 0 ∧ t.pending = rest ∧
      t.crc = (Config.resetDraw t.resets 0x008).extractLsb' 0 16 ∧
      t.paddr = (Config.resetDraw t.resets 0x010).extractLsb' 0 16 ∧
      windowWord 0x014 t = Config.resetDraw t.resets 0x014 &&& 0x00FFFFFF ∧
      ∀ off, off % 4 = 0 → 0x018 ≤ off → reservedOffset off = false → windowWord off t = Config.resetDraw t.resets off

/-! ### Pseudo-instructions (30_encoding.md R79) -/

/-- R79. `LDFB b0, …` with at most FB_BYTES bytes expands to writes that complete, leave FB[j] = bj for the bytes
given and 0 in the rest of the last word touched, and change no other byte of FB and no other register; with more
bytes it does not expand. -/
def Obligations.LdfbLoadsTheFrame : Prop :=
  (∀ bs : List Byte, Config.fbBytes < bs.length → ldfb bs = none) ∧
  ∀ (bs : List Byte) (s : State), bs.length ≤ Config.fbBytes →
    ∃ is f, ldfb bs = some is ∧ execAll is s = .next { s with fb := f } ∧
      (∀ j, ∀ h : j < bs.length, ∀ hj : j < Config.fbBytes, f[j] = bs[j]) ∧
      (∀ j, bs.length ≤ j → j / 4 < (bs.length + 3) / 4 → ∀ hj : j < Config.fbBytes, f[j] = 0) ∧
      (∀ j, (bs.length + 3) / 4 ≤ j / 4 → ∀ hj : j < Config.fbBytes, f[j] = s.fb[j])

/-- R79. `CRC.CHECK len` is CRC.VALIDATE with the CRC bytes behind the covered bytes, for `len` up to 254, and
`RDSTATUS` is the read of STATUS. -/
def Obligations.CheckAndRdstatusExpand : Prop :=
  (∀ len, crcCheck len = if len ≤ 254 then some [.crcValidate len len (len + 1)] else none) ∧
  rdstatus = [.regRd 0x004]
end

