-- ==== Sys2Proof/Laws/Decode.lean ====
section
/-! SUPPORT. The fields of a command word and of a bus header, and the rows of the opcode table: no two rows share a
word. -/

namespace Sys2Proof

/-- Four bytes joined, read bit by bit. -/
theorem joined_getLsbD (x3 x2 x1 x0 : Byte) (i : Nat) : (show Word from x3 ++ x2 ++ x1 ++ x0).getLsbD i =
    if i < 8 then x0.getLsbD i else if i < 16 then x1.getLsbD (i - 8)
    else if i < 24 then x2.getLsbD (i - 16) else x3.getLsbD (i - 24) := by
  have h : (show Word from x3 ++ x2 ++ x1 ++ x0).getLsbD i =
      BitVec.getLsbD (w := 8 + 8 + 8 + 8) (x3 ++ x2 ++ x1 ++ x0) i := rfl
  rw [h]
  simp only [BitVec.getLsbD_append]
  have e1 : i - 8 - 8 = i - 16 := by omega
  have e2 : i - 16 - 8 = i - 24 := by omega
  rw [e1, e2]
  split_ifs <;> first | rfl | omega

theorem opField_commandWord (op a b c : Nat) : opField (commandWord op a b c) = BitVec.ofNat 8 op := by
  apply BitVec.eq_of_getLsbD_eq
  intro i hi
  rw [opField, BitVec.getLsbD_extractLsb', commandWord, joined_getLsbD, decide_eq_true hi, if_pos (by omega)]
  simp

theorem fieldA_commandWord (op a b c : Nat) : fieldA (commandWord op a b c) = BitVec.ofNat 8 a := by
  apply BitVec.eq_of_getLsbD_eq
  intro i hi
  rw [fieldA, BitVec.getLsbD_extractLsb', commandWord, joined_getLsbD, decide_eq_true hi, if_neg (by omega),
    if_pos (by omega), Nat.add_sub_cancel_left, Bool.true_and]

theorem fieldB_commandWord (op a b c : Nat) : fieldB (commandWord op a b c) = BitVec.ofNat 8 b := by
  apply BitVec.eq_of_getLsbD_eq
  intro i hi
  rw [fieldB, BitVec.getLsbD_extractLsb', commandWord, joined_getLsbD, decide_eq_true hi, if_neg (by omega),
    if_neg (by omega), if_pos (by omega), Nat.add_sub_cancel_left, Bool.true_and]

theorem fieldC_commandWord (op a b c : Nat) : fieldC (commandWord op a b c) = BitVec.ofNat 8 c := by
  apply BitVec.eq_of_getLsbD_eq
  intro i hi
  rw [fieldC, BitVec.getLsbD_extractLsb', commandWord, joined_getLsbD, decide_eq_true hi, if_neg (by omega),
    if_neg (by omega), if_neg (by omega), Nat.add_sub_cancel_left, Bool.true_and]

/-- A word is made of its fields. -/
theorem commandWord_fields (v : Word) :
    commandWord (opField v).toNat (fieldA v).toNat (fieldB v).toNat (fieldC v).toNat = v := by
  apply BitVec.eq_of_getLsbD_eq
  intro i hi
  rw [commandWord, joined_getLsbD]
  simp only [BitVec.ofNat_toNat, BitVec.setWidth_eq, opField, fieldA, fieldB, fieldC, BitVec.getLsbD_extractLsb']
  split_ifs <;> rw [decide_eq_true (by omega), Bool.true_and] <;> congr 1 <;> omega

/-- Words with equal fields are equal. -/
theorem word_ext_fields {v u : Word} (h0 : opField v = opField u) (hA : fieldA v = fieldA u) (hB : fieldB v = fieldB u)
    (hC : fieldC v = fieldC u) : v = u := by
  rw [← commandWord_fields v, ← commandWord_fields u, h0, hA, hB, hC]

theorem busHeader_we (we : Bool) (off : Nat) : (busHeader we off).getLsbD 12 = we := by
  have h : (busHeader we off).getLsbD 12 = BitVec.getLsbD (w := 1 + 12) (BitVec.ofBool we ++ BitVec.ofNat 12 off) 12 := rfl
  rw [h, BitVec.getLsbD_append]
  simp

theorem busHeader_off (we : Bool) (off : Nat) : (busHeader we off).extractLsb' 0 12 = BitVec.ofNat 12 off := by
  apply BitVec.eq_of_getLsbD_eq
  intro i hi
  have h : (busHeader we off).getLsbD (0 + i) =
      BitVec.getLsbD (w := 1 + 12) (BitVec.ofBool we ++ BitVec.ofNat 12 off) (0 + i) := rfl
  rw [BitVec.getLsbD_extractLsb', h, BitVec.getLsbD_append, decide_eq_true hi, if_pos (by omega)]
  simp

theorem decodeBus_header (we : Bool) (off : Nat) (v : Word) :
    decodeBus ⟨busHeader we off, v⟩ = if we then .regWr (off % 4096) v else .regRd (off % 4096) := by
  simp only [decodeBus, busHeader_we, busHeader_off, BitVec.toNat_ofNat]

/-- The write of a command word to CMD, as the port carries it. -/
theorem decodeBus_cmdw (v : Word) : decodeBus (Encoded.cmdw v).toBus = .regWr 0x000 v := by
  rw [Encoded.toBus, decodeBus_header]
  rfl

theorem withoutOperands_eq_ok {v : Word} {i j : Instr} :
    withoutOperands v i = .ok j ↔ (fieldA v = 0 ∧ fieldB v = 0 ∧ fieldC v = 0) ∧ i = j := by
  unfold withoutOperands
  split_ifs with h
  · simp [h]
  · simp only [false_iff]; exact fun hh => h hh.1

theorem withOperandA_eq_ok {v : Word} {i : Nat → Instr} {j : Instr} :
    withOperandA v i = .ok j ↔ (fieldB v = 0 ∧ fieldC v = 0) ∧ i (fieldA v).toNat = j := by
  unfold withOperandA
  split_ifs with h
  · simp [h]
  · simp only [false_iff]; exact fun hh => h hh.1

/-- The decoder's answer by the opcode, as one chain of cases (30_encoding.md R71, R74). -/
theorem decodeCommand_eq (v : Word) : decodeCommand v =
    if opField v = 0x00#8 then withoutOperands v .nop
    else if opField v = 0x01#8 then withoutOperands v .clear
    else if opField v = 0x10#8 then withoutOperands v .macAssemble
    else if opField v = 0x11#8 then withoutOperands v .macDigest
    else if opField v = 0x12#8 then withoutOperands v .macFold
    else if opField v = 0x13#8 then withoutOperands v .macCompare
    else if opField v = 0x14#8 then withoutOperands v .macExpect
    else if opField v = 0x15#8 then withoutOperands v .macAuth
    else if opField v = 0x20#8 then withOperandA v .crcCompute
    else if opField v = 0x21#8 then .ok (.crcValidate (fieldA v).toNat (fieldB v).toNat (fieldC v).toNat)
    else .error .unassignedOpcode := by
  unfold decodeCommand
  simp only [← BitVec.toNat_inj, BitVec.toNat_ofNat, Nat.reducePow, Nat.reduceMod]
  split <;> simp_all

/-- The decoder answers commands only, well-formed ones. -/
theorem decodeCommand_isCommand {v : Word} {i : Instr} (h : decodeCommand v = .ok i) :
    i.isCommand = true ∧ i.wellFormed = true := by
  have hfit : ∀ b : Byte, fitsField b.toNat = true := fun b => decide_eq_true b.isLt
  have h0 : ∀ j, (j.isCommand = true ∧ j.wellFormed = true) → withoutOperands v j = .ok i →
      i.isCommand = true ∧ i.wellFormed = true := fun j hj h => (withoutOperands_eq_ok.mp h).2 ▸ hj
  rw [decodeCommand_eq] at h
  split_ifs at h
  · exact h0 _ ⟨rfl, rfl⟩ h
  · exact h0 _ ⟨rfl, rfl⟩ h
  · exact h0 _ ⟨rfl, rfl⟩ h
  · exact h0 _ ⟨rfl, rfl⟩ h
  · exact h0 _ ⟨rfl, rfl⟩ h
  · exact h0 _ ⟨rfl, rfl⟩ h
  · exact h0 _ ⟨rfl, rfl⟩ h
  · exact h0 _ ⟨rfl, rfl⟩ h
  · exact (withOperandA_eq_ok.mp h).2 ▸ ⟨rfl, hfit _⟩
  · cases h
    exact ⟨rfl, by rw [Instr.wellFormed, hfit, hfit, hfit]; rfl⟩

/-- The 32-bit rows of spec/opcode_table.json: mask and match. -/
def commandRows : List (Word × Word) :=
  [(0xFFFFFFFF, 0x00000000), (0xFFFFFFFF, 0x00000001), (0xFFFFFFFF, 0x00000010), (0xFFFFFFFF, 0x00000011),
   (0xFFFFFFFF, 0x00000012), (0xFFFFFFFF, 0x00000013), (0xFFFFFFFF, 0x00000014), (0xFFFFFFFF, 0x00000015),
   (0xFFFF00FF, 0x00000020), (0x000000FF, 0x00000021)]

/-- Any two rows differ in a bit that both fix, so no word belongs to two rows. -/
theorem commandRows_disjoint :
    commandRows.Pairwise fun r q => r.1 &&& q.1 &&& (r.2 ^^^ q.2) ≠ 0 := by decide

end Sys2Proof
end

