-- ==== Sys2Proof/Laws/State.lean ====
section
/-! SUPPORT. One lemma per field per update of State, so that no proof unfolds a record update. -/

namespace Sys2Proof.Machine

variable (s : State)

@[simp] theorem State.completed_status : (s.completed).status = s.status.completed := rfl
@[simp] theorem State.completed_crc : (s.completed).crc = s.crc := rfl
@[simp] theorem State.completed_paddr : (s.completed).paddr = s.paddr := rfl
@[simp] theorem State.completed_chal : (s.completed).chal = s.chal := rfl
@[simp] theorem State.completed_sec : (s.completed).sec = s.sec := rfl
@[simp] theorem State.completed_id : (s.completed).id = s.id := rfl
@[simp] theorem State.completed_w : (s.completed).w = s.w := rfl
@[simp] theorem State.completed_h : (s.completed).h = s.h := rfl
@[simp] theorem State.completed_mac : (s.completed).mac = s.mac := rfl
@[simp] theorem State.completed_dmac : (s.completed).dmac = s.dmac := rfl
@[simp] theorem State.completed_page : (s.completed).page = s.page := rfl
@[simp] theorem State.completed_fb : (s.completed).fb = s.fb := rfl
@[simp] theorem State.completed_rdata : (s.completed).rdata = s.rdata := rfl
@[simp] theorem State.completed_pending : (s.completed).pending = s.pending := rfl
@[simp] theorem State.completed_resets : (s.completed).resets = s.resets := rfl

@[simp] theorem State.withError_status (c : ErrCode) : (s.withError c).status = s.status.raised c := rfl
@[simp] theorem State.withError_crc (c : ErrCode) : (s.withError c).crc = s.crc := rfl
@[simp] theorem State.withError_paddr (c : ErrCode) : (s.withError c).paddr = s.paddr := rfl
@[simp] theorem State.withError_chal (c : ErrCode) : (s.withError c).chal = s.chal := rfl
@[simp] theorem State.withError_sec (c : ErrCode) : (s.withError c).sec = s.sec := rfl
@[simp] theorem State.withError_id (c : ErrCode) : (s.withError c).id = s.id := rfl
@[simp] theorem State.withError_w (c : ErrCode) : (s.withError c).w = s.w := rfl
@[simp] theorem State.withError_h (c : ErrCode) : (s.withError c).h = s.h := rfl
@[simp] theorem State.withError_mac (c : ErrCode) : (s.withError c).mac = s.mac := rfl
@[simp] theorem State.withError_dmac (c : ErrCode) : (s.withError c).dmac = s.dmac := rfl
@[simp] theorem State.withError_page (c : ErrCode) : (s.withError c).page = s.page := rfl
@[simp] theorem State.withError_fb (c : ErrCode) : (s.withError c).fb = s.fb := rfl
@[simp] theorem State.withError_rdata (c : ErrCode) : (s.withError c).rdata = s.rdata := rfl
@[simp] theorem State.withError_pending (c : ErrCode) : (s.withError c).pending = s.pending := rfl
@[simp] theorem State.withError_resets (c : ErrCode) : (s.withError c).resets = s.resets := rfl

@[simp] theorem State.respond_status (v : Word) : (s.respond v).status = s.status := rfl
@[simp] theorem State.respond_crc (v : Word) : (s.respond v).crc = s.crc := rfl
@[simp] theorem State.respond_paddr (v : Word) : (s.respond v).paddr = s.paddr := rfl
@[simp] theorem State.respond_chal (v : Word) : (s.respond v).chal = s.chal := rfl
@[simp] theorem State.respond_sec (v : Word) : (s.respond v).sec = s.sec := rfl
@[simp] theorem State.respond_id (v : Word) : (s.respond v).id = s.id := rfl
@[simp] theorem State.respond_w (v : Word) : (s.respond v).w = s.w := rfl
@[simp] theorem State.respond_h (v : Word) : (s.respond v).h = s.h := rfl
@[simp] theorem State.respond_mac (v : Word) : (s.respond v).mac = s.mac := rfl
@[simp] theorem State.respond_dmac (v : Word) : (s.respond v).dmac = s.dmac := rfl
@[simp] theorem State.respond_page (v : Word) : (s.respond v).page = s.page := rfl
@[simp] theorem State.respond_fb (v : Word) : (s.respond v).fb = s.fb := rfl
@[simp] theorem State.respond_rdata (v : Word) : (s.respond v).rdata = some v := rfl
@[simp] theorem State.respond_pending (v : Word) : (s.respond v).pending = s.pending := rfl
@[simp] theorem State.respond_resets (v : Word) : (s.respond v).resets = s.resets := rfl

@[simp] theorem State.issueNext_status (t : BusTxn) : (s.issueNext t).status = s.status := rfl
@[simp] theorem State.issueNext_crc (t : BusTxn) : (s.issueNext t).crc = s.crc := rfl
@[simp] theorem State.issueNext_paddr (t : BusTxn) : (s.issueNext t).paddr = s.paddr := rfl
@[simp] theorem State.issueNext_chal (t : BusTxn) : (s.issueNext t).chal = s.chal := rfl
@[simp] theorem State.issueNext_sec (t : BusTxn) : (s.issueNext t).sec = s.sec := rfl
@[simp] theorem State.issueNext_id (t : BusTxn) : (s.issueNext t).id = s.id := rfl
@[simp] theorem State.issueNext_w (t : BusTxn) : (s.issueNext t).w = s.w := rfl
@[simp] theorem State.issueNext_h (t : BusTxn) : (s.issueNext t).h = s.h := rfl
@[simp] theorem State.issueNext_mac (t : BusTxn) : (s.issueNext t).mac = s.mac := rfl
@[simp] theorem State.issueNext_dmac (t : BusTxn) : (s.issueNext t).dmac = s.dmac := rfl
@[simp] theorem State.issueNext_page (t : BusTxn) : (s.issueNext t).page = s.page := rfl
@[simp] theorem State.issueNext_fb (t : BusTxn) : (s.issueNext t).fb = s.fb := rfl
@[simp] theorem State.issueNext_rdata (t : BusTxn) : (s.issueNext t).rdata = s.rdata := rfl
@[simp] theorem State.issueNext_pending (t : BusTxn) : (s.issueNext t).pending = .access t :: s.pending := rfl
@[simp] theorem State.issueNext_resets (t : BusTxn) : (s.issueNext t).resets = s.resets := rfl

@[simp] theorem State.cleared_status : (s.cleared).status = Status.cleared := rfl
@[simp] theorem State.cleared_crc : (s.cleared).crc = 0 := rfl
@[simp] theorem State.cleared_paddr : (s.cleared).paddr = 0 := rfl
@[simp] theorem State.cleared_chal : (s.cleared).chal = Vector.replicate 3 0 := rfl
@[simp] theorem State.cleared_sec : (s.cleared).sec = Vector.replicate 8 0 := rfl
@[simp] theorem State.cleared_id : (s.cleared).id = Vector.replicate 8 0 := rfl
@[simp] theorem State.cleared_w : (s.cleared).w = Vector.replicate 16 0 := rfl
@[simp] theorem State.cleared_h : (s.cleared).h = Vector.replicate 5 0 := rfl
@[simp] theorem State.cleared_mac : (s.cleared).mac = Vector.replicate 20 0 := rfl
@[simp] theorem State.cleared_dmac : (s.cleared).dmac = Vector.replicate 20 0 := rfl
@[simp] theorem State.cleared_page : (s.cleared).page = Vector.replicate 32 0 := rfl
@[simp] theorem State.cleared_fb : (s.cleared).fb = Vector.replicate Config.fbBytes 0 := rfl
@[simp] theorem State.cleared_rdata : (s.cleared).rdata = s.rdata := rfl
@[simp] theorem State.cleared_pending : (s.cleared).pending = s.pending := rfl
@[simp] theorem State.cleared_resets : (s.cleared).resets = s.resets := rfl

@[simp] theorem State.digested_status : (s.digested).status = s.status := rfl
@[simp] theorem State.digested_crc : (s.digested).crc = s.crc := rfl
@[simp] theorem State.digested_paddr : (s.digested).paddr = s.paddr := rfl
@[simp] theorem State.digested_chal : (s.digested).chal = s.chal := rfl
@[simp] theorem State.digested_sec : (s.digested).sec = s.sec := rfl
@[simp] theorem State.digested_id : (s.digested).id = s.id := rfl
@[simp] theorem State.digested_w : (s.digested).w = s.w := rfl
@[simp] theorem State.digested_h : (s.digested).h = (sha1d s.w).toH := rfl
@[simp] theorem State.digested_mac : (s.digested).mac = s.mac := rfl
@[simp] theorem State.digested_dmac : (s.digested).dmac = s.dmac := rfl
@[simp] theorem State.digested_page : (s.digested).page = s.page := rfl
@[simp] theorem State.digested_fb : (s.digested).fb = s.fb := rfl
@[simp] theorem State.digested_rdata : (s.digested).rdata = s.rdata := rfl
@[simp] theorem State.digested_pending : (s.digested).pending = s.pending := rfl
@[simp] theorem State.digested_resets : (s.digested).resets = s.resets := rfl

@[simp] theorem State.folded_status : (s.folded).status = s.status := rfl
@[simp] theorem State.folded_crc : (s.folded).crc = s.crc := rfl
@[simp] theorem State.folded_paddr : (s.folded).paddr = s.paddr := rfl
@[simp] theorem State.folded_chal : (s.folded).chal = s.chal := rfl
@[simp] theorem State.folded_sec : (s.folded).sec = s.sec := rfl
@[simp] theorem State.folded_id : (s.folded).id = s.id := rfl
@[simp] theorem State.folded_w : (s.folded).w = s.w := rfl
@[simp] theorem State.folded_h : (s.folded).h = s.h := rfl
@[simp] theorem State.folded_mac : (s.folded).mac = foldMac s.h := rfl
@[simp] theorem State.folded_dmac : (s.folded).dmac = s.dmac := rfl
@[simp] theorem State.folded_page : (s.folded).page = s.page := rfl
@[simp] theorem State.folded_fb : (s.folded).fb = s.fb := rfl
@[simp] theorem State.folded_rdata : (s.folded).rdata = s.rdata := rfl
@[simp] theorem State.folded_pending : (s.folded).pending = s.pending := rfl
@[simp] theorem State.folded_resets : (s.folded).resets = s.resets := rfl

@[simp] theorem State.assembled_status : (s.assembled).status = s.status := rfl
@[simp] theorem State.assembled_crc : (s.assembled).crc = s.crc := rfl
@[simp] theorem State.assembled_paddr : (s.assembled).paddr = s.paddr := rfl
@[simp] theorem State.assembled_chal : (s.assembled).chal = s.chal := rfl
@[simp] theorem State.assembled_sec : (s.assembled).sec = s.sec := rfl
@[simp] theorem State.assembled_id : (s.assembled).id = s.id := rfl
@[simp] theorem State.assembled_w : (s.assembled).w = macBlock s := rfl
@[simp] theorem State.assembled_h : (s.assembled).h = s.h := rfl
@[simp] theorem State.assembled_mac : (s.assembled).mac = s.mac := rfl
@[simp] theorem State.assembled_dmac : (s.assembled).dmac = s.dmac := rfl
@[simp] theorem State.assembled_page : (s.assembled).page = s.page := rfl
@[simp] theorem State.assembled_fb : (s.assembled).fb = s.fb := rfl
@[simp] theorem State.assembled_rdata : (s.assembled).rdata = s.rdata := rfl
@[simp] theorem State.assembled_pending : (s.assembled).pending = s.pending := rfl
@[simp] theorem State.assembled_resets : (s.assembled).resets = s.resets := rfl

@[simp] theorem State.compared_status : (s.compared).status = { s.status with macEq := macEqFlag s.mac s.dmac } := rfl
@[simp] theorem State.compared_crc : (s.compared).crc = s.crc := rfl
@[simp] theorem State.compared_paddr : (s.compared).paddr = s.paddr := rfl
@[simp] theorem State.compared_chal : (s.compared).chal = s.chal := rfl
@[simp] theorem State.compared_sec : (s.compared).sec = s.sec := rfl
@[simp] theorem State.compared_id : (s.compared).id = s.id := rfl
@[simp] theorem State.compared_w : (s.compared).w = s.w := rfl
@[simp] theorem State.compared_h : (s.compared).h = s.h := rfl
@[simp] theorem State.compared_mac : (s.compared).mac = s.mac := rfl
@[simp] theorem State.compared_dmac : (s.compared).dmac = s.dmac := rfl
@[simp] theorem State.compared_page : (s.compared).page = s.page := rfl
@[simp] theorem State.compared_fb : (s.compared).fb = s.fb := rfl
@[simp] theorem State.compared_rdata : (s.compared).rdata = s.rdata := rfl
@[simp] theorem State.compared_pending : (s.compared).pending = s.pending := rfl
@[simp] theorem State.compared_resets : (s.compared).resets = s.resets := rfl

@[simp] theorem Status.completed_frameOk (st : Status) : (st.completed).frameOk = st.frameOk := rfl
@[simp] theorem Status.completed_macEq (st : Status) : (st.completed).macEq = st.macEq := rfl
@[simp] theorem Status.completed_err (st : Status) : (st.completed).err = .none := rfl
@[simp] theorem Status.completed_errSticky (st : Status) : (st.completed).errSticky = st.errSticky := rfl

@[simp] theorem Status.raised_frameOk (st : Status) (c : ErrCode) : (st.raised c).frameOk = st.frameOk := rfl
@[simp] theorem Status.raised_macEq (st : Status) (c : ErrCode) : (st.raised c).macEq = st.macEq := rfl
@[simp] theorem Status.raised_err (st : Status) (c : ErrCode) : (st.raised c).err = c := rfl
@[simp] theorem Status.raised_errSticky (st : Status) (c : ErrCode) : (st.raised c).errSticky = true := rfl

end Sys2Proof.Machine
end

