-- ==== Sys2Proof/Laws/Ops.lean ====
section
/-! SUPPORT. What each shared operation can do, said once: completing, raising, answering, taking the host's next
action, issuing a command. -/

namespace Sys2Proof.Machine

theorem complete_eq (s : State) : complete s = .next s.noErr := rfl

theorem raiseErr_eq (c : ErrCode) (s : State) : raiseErr c s = .next (s.err c) := rfl

theorem complete_next {s t : State} (h : complete s = .next t) : t = s.completed := by
  simpa [complete] using h.symm

theorem raiseErr_next {c : ErrCode} {s t : State} (h : raiseErr c s = .next t) : t = s.withError c := by
  simpa [raiseErr] using h.symm

/-- A command run from the decoder is the instruction run by `exec`. -/
theorem runCommand_eq_exec {i : Instr} (h : i.isCommand = true) (s : State) : runCommand i s = exec i s := by
  cases i <;> first | rfl | cases h

theorem issueCommand_ok {v : Word} {i : Instr} (h : decodeCommand v = .ok i) (s : State) :
    issueCommand v s = runCommand i s := by simp only [issueCommand, h]

theorem issueCommand_error {v : Word} {e : DecodeError} (h : decodeCommand v = .error e) (s : State) :
    issueCommand v s = .next (s.err .illegalCmd) := by simp only [issueCommand, h, raiseErr_eq]

theorem execRegWr_cmd (v : Word) (s : State) : execRegWr 0x000 v s = issueCommand v s := rfl

theorem exec_regRd (off : Nat) (s : State) : exec (.regRd off) s = execRegRd off s := rfl

theorem exec_regWr (off : Nat) (v : Word) (s : State) : exec (.regWr off v) s = execRegWr off v s := rfl

/-- A legal word written to CMD is its command executed. -/
theorem exec_regWr_cmd_ok {v : Word} {i : Instr} (h : decodeCommand v = .ok i) (s : State) :
    exec (.regWr 0x000 v) s = exec i s := by
  rw [exec_regWr, execRegWr_cmd, issueCommand_ok h, runCommand_eq_exec (decodeCommand_isCommand h).1]

/-- An illegal word written to CMD raises ILLEGAL_CMD. -/
theorem exec_regWr_cmd_error {v : Word} {e : DecodeError} (h : decodeCommand v = .error e) (s : State) :
    exec (.regWr 0x000 v) s = .next (s.err .illegalCmd) := by
  rw [exec_regWr, execRegWr_cmd, issueCommand_error h]

theorem takeAction_nil {s : State} (h : s.pending = []) : s.takeAction = none := by
  rw [State.takeAction, h]

theorem takeAction_cons {s : State} {a : HostAction} {rest : List HostAction} (h : s.pending = a :: rest) :
    s.takeAction = some (a, { s with pending := rest }) := by
  rw [State.takeAction, h]

theorem step_idle {s : State} (h : s.pending = []) : step s = .next s := by
  rw [step, takeAction_nil h]

theorem step_access {s : State} {t : BusTxn} {rest : List HostAction} (h : s.pending = .access t :: rest) :
    step s = exec (decodeBus t) { s with pending := rest } := by
  rw [step, takeAction_cons h]

theorem step_hardReset {s : State} {rest : List HostAction} (h : s.pending = .hardReset :: rest) :
    step s = .next (State.afterReset (s.resets + 1) rest) := by
  rw [step, takeAction_cons h]; rfl

/-- A step is one of three things: nothing, the next access executed, or a hardware reset. -/
theorem step_cases (s : State) :
    (s.pending = [] ∧ step s = .next s) ∨
    (∃ t rest, s.pending = .access t :: rest ∧ step s = exec (decodeBus t) { s with pending := rest }) ∨
    (∃ rest, s.pending = .hardReset :: rest ∧ step s = .next (State.afterReset (s.resets + 1) rest)) := by
  match h : s.pending with
  | [] => exact .inl ⟨rfl, step_idle h⟩
  | .access t :: rest => exact .inr (.inl ⟨t, rest, rfl, step_access h⟩)
  | .hardReset :: rest => exact .inr (.inr ⟨rest, rfl, step_hardReset h⟩)

theorem execCrcCompute_inRange {len : Nat} (h : len ≤ Config.fbBytes) (s : State) :
    execCrcCompute len s = .next { s with crc := crc16 len s, status := { s.status with err := .none } } := by
  rw [execCrcCompute, if_neg (by omega), complete_eq]

theorem execCrcCompute_outOfRange {len : Nat} (h : Config.fbBytes < len) (s : State) :
    execCrcCompute len s = .next (s.err .range) := by
  rw [execCrcCompute, if_pos h, raiseErr_eq]

theorem execCrcValidate_inRange {len i1 i2 : Nat} (h : len ≤ Config.fbBytes) (h1 : i1 < Config.fbBytes)
    (h2 : i2 < Config.fbBytes) (s : State) :
    execCrcValidate len i1 i2 s = .next { s with
      crc := crc16 len s
      status := { s.status with frameOk := frameOkFlag (crc16 len s) s.fb[i1] s.fb[i2], err := .none } } := by
  rw [execCrcValidate, dif_neg (by omega), complete_eq]

theorem execCrcValidate_outOfRange {len i1 i2 : Nat}
    (h : Config.fbBytes < len ∨ Config.fbBytes ≤ i1 ∨ Config.fbBytes ≤ i2) (s : State) :
    execCrcValidate len i1 i2 s = .next (s.err .range) := by
  rw [execCrcValidate, dif_pos (by omega), raiseErr_eq]

theorem execRegRd_some {off : Nat} {r : WindowReg} (h : regAt off = some r) (s : State) :
    execRegRd off s = .next { s with rdata := some (readReg r s) } := by
  simp only [execRegRd, h, State.respond]

theorem execRegRd_none {off : Nat} (h : regAt off = none) (s : State) :
    execRegRd off s = .next (State.err .bus { s with rdata := some 0 }) := by
  simp only [execRegRd, h, State.respond, raiseErr_eq]

theorem execRegWr_some {off : Nat} {r : WindowReg} (h : regAt off = some r) (v : Word) (s : State) :
    execRegWr off v s = writeReg r v s := by
  simp only [execRegWr, h]

theorem execRegWr_none {off : Nat} (h : regAt off = none) (v : Word) (s : State) :
    execRegWr off v s = .next (s.err .bus) := by
  simp only [execRegWr, h, raiseErr_eq]

end Sys2Proof.Machine
end

