-- ==== Sys2Proof/Laws/Operands.lean ====
section
/-! SUPPORT. Byte order and the window: packing and unpacking are inverse, and the map from offsets to register
words is one to one and misses exactly the misaligned and the reserved offsets. -/

namespace Sys2Proof.Machine

theorem le32_getLsbD (b0 b1 b2 b3 : Byte) (i : Nat) : (le32 b0 b1 b2 b3).getLsbD i =
    if i < 8 then b0.getLsbD i else if i < 16 then b1.getLsbD (i - 8)
    else if i < 24 then b2.getLsbD (i - 16) else b3.getLsbD (i - 24) := by
  have h : (le32 b0 b1 b2 b3).getLsbD i = BitVec.getLsbD (w := 8 + 8 + 8 + 8) (b3 ++ b2 ++ b1 ++ b0) i := rfl
  rw [h]
  simp only [BitVec.getLsbD_append]
  have e1 : i - 8 - 8 = i - 16 := by omega
  have e2 : i - 16 - 8 = i - 24 := by omega
  rw [e1, e2]
  split_ifs <;> first | rfl | omega

theorem byteOf_getLsbD (j : Nat) (x : Word) (i : Nat) : (byteOf j x).getLsbD i = (decide (i < 8) && x.getLsbD (8 * j + i)) := by
  simp [byteOf]

theorem byteOf_le32 (b0 b1 b2 b3 : Byte) (j : Nat) (hj : j < 4) :
    byteOf j (le32 b0 b1 b2 b3) = #v[b0, b1, b2, b3][j] := by
  apply BitVec.eq_of_getLsbD_eq
  intro i hi
  rw [byteOf_getLsbD, le32_getLsbD, decide_eq_true hi, Bool.true_and]
  obtain rfl | rfl | rfl | rfl : j = 0 ∨ j = 1 ∨ j = 2 ∨ j = 3 := by omega
  · rw [if_pos (by omega)]; simp
  · rw [if_neg (by omega), if_pos (by omega), Nat.add_sub_cancel_left]; rfl
  · rw [if_neg (by omega), if_neg (by omega), if_pos (by omega), Nat.add_sub_cancel_left]; rfl
  · rw [if_neg (by omega), if_neg (by omega), if_neg (by omega), Nat.add_sub_cancel_left]; rfl

theorem byteOf_zero_le32 (b0 b1 b2 b3 : Byte) : byteOf 0 (le32 b0 b1 b2 b3) = b0 := byteOf_le32 b0 b1 b2 b3 0 (by omega)
theorem byteOf_one_le32 (b0 b1 b2 b3 : Byte) : byteOf 1 (le32 b0 b1 b2 b3) = b1 := byteOf_le32 b0 b1 b2 b3 1 (by omega)
theorem byteOf_two_le32 (b0 b1 b2 b3 : Byte) : byteOf 2 (le32 b0 b1 b2 b3) = b2 := byteOf_le32 b0 b1 b2 b3 2 (by omega)
theorem byteOf_three_le32 (b0 b1 b2 b3 : Byte) : byteOf 3 (le32 b0 b1 b2 b3) = b3 := byteOf_le32 b0 b1 b2 b3 3 (by omega)

theorem be32_eq_le32 (b0 b1 b2 b3 : Byte) : be32 b0 b1 b2 b3 = le32 b3 b2 b1 b0 := rfl

theorem le32_bytesOf (x : Word) : le32 (byteOf 0 x) (byteOf 1 x) (byteOf 2 x) (byteOf 3 x) = x := by
  apply BitVec.eq_of_getLsbD_eq
  intro i hi
  rw [le32_getLsbD]
  split_ifs <;> simp only [byteOf_getLsbD] <;> rw [decide_eq_true (by omega), Bool.true_and] <;> congr 1 <;> omega

theorem unpackWord_get {n : Nat} (v : Vector Byte n) (k : Nat) (data : Word) (h : 4 * k + 3 < n) (j : Nat) (hj : j < n) :
    (unpackWord v k data h)[j] = if j / 4 = k then byteOf (j % 4) data else v[j] := by
  simp only [unpackWord, Vector.getElem_set]
  split_ifs <;> first | rfl | omega | (congr 1; omega)

theorem unpackWord_eq_ofFn {n : Nat} (v : Vector Byte n) (k : Nat) (data : Word) (h : 4 * k + 3 < n) :
    unpackWord v k data h =
      Vector.ofFn fun j => if j.val / 4 = k then data.extractLsb' (8 * (j.val % 4)) 8 else v[j] := by
  ext j hj
  rw [unpackWord_get, Vector.getElem_ofFn]; rfl

theorem packWord_unpackWord {n : Nat} (v : Vector Byte n) (k : Nat) (data : Word) (h : 4 * k + 3 < n) :
    packWord (unpackWord v k data h) k h = data := by
  simp only [packWord, unpackWord_get]
  rw [if_pos (by omega), if_pos (by omega), if_pos (by omega), if_pos (by omega)]
  have h0 : 4 * k % 4 = 0 := by omega
  have h1 : (4 * k + 1) % 4 = 1 := by omega
  have h2 : (4 * k + 2) % 4 = 2 := by omega
  have h3 : (4 * k + 3) % 4 = 3 := by omega
  rw [h0, h1, h2, h3, le32_bytesOf]

theorem packWord_unpackWord_ne {n : Nat} (v : Vector Byte n) (k l : Nat) (data : Word) (h : 4 * k + 3 < n)
    (hl : 4 * l + 3 < n) (hne : l ≠ k) : packWord (unpackWord v k data h) l hl = packWord v l hl := by
  simp only [packWord, unpackWord_get]
  rw [if_neg (by omega), if_neg (by omega), if_neg (by omega), if_neg (by omega)]

theorem wordIn_eq_some {base n off : Nat} {k : Fin n} :
    wordIn base n off = some k ↔ base ≤ off ∧ (off - base) / 4 = k.val := by
  have := k.isLt
  unfold wordIn
  split_ifs with h <;> simp [Fin.ext_iff] <;> omega

theorem wordIn_eq_none {base n off : Nat} : wordIn base n off = none ↔ ¬(base ≤ off ∧ (off - base) / 4 < n) := by
  unfold wordIn
  split_ifs with h <;> simp [h]

theorem mapRow_eq_some {base n off : Nat} {reg : Fin n → WindowReg} {r : WindowReg} :
    mapRow base n reg off = some r ↔ ∃ k : Fin n, (base ≤ off ∧ (off - base) / 4 = k.val) ∧ reg k = r := by
  simp only [mapRow, Option.map_eq_some_iff, wordIn_eq_some]

theorem mapRow_eq_none {base n off : Nat} {reg : Fin n → WindowReg} :
    mapRow base n reg off = none ↔ ¬(base ≤ off ∧ (off - base) / 4 < n) := by
  simp only [mapRow, Option.map_eq_none_iff, wordIn_eq_none]

theorem offset_of_regAt {off : Nat} {r : WindowReg} (h : regAt off = some r) : r.offset = off := by
  unfold regAt at h
  split_ifs at h with h4
  obtain ⟨row, hrow, hr⟩ := List.exists_of_findSome?_eq_some h
  simp only [windowMap, List.mem_cons, List.not_mem_nil, or_false] at hrow
  rcases hrow with rfl | rfl | rfl | rfl | rfl | rfl | rfl | rfl | rfl | rfl | rfl | rfl | rfl
  all_goals
    obtain ⟨k, hk, rfl⟩ := mapRow_eq_some.mp hr
    simp only [WindowReg.offset]; omega

theorem regAt_eq_none {off : Nat} : regAt off = none ↔ off % 4 ≠ 0 ∨ reservedOffset off = true := by
  have h4 : Config.fbBytes = 64 := rfl
  unfold regAt
  split_ifs with h
  · exact iff_of_true rfl (.inl h)
  · simp only [windowMap, List.findSome?_eq_none_iff, List.forall_mem_cons, mapRow_eq_none, reservedOffset,
      decide_eq_true_eq, List.not_mem_nil, false_imp_iff, implies_true, and_true]
    omega

theorem regAt_offset (r : WindowReg) : regAt r.offset = some r := by
  have hn : regAt r.offset ≠ none := by
    have h4 : Config.fbBytes = 64 := rfl
    rw [Ne, regAt_eq_none, reservedOffset, decide_eq_true_eq]
    cases r <;> simp only [WindowReg.offset] <;> omega
  obtain ⟨r', hr'⟩ := Option.ne_none_iff_exists'.mp hn
  have hinj : ∀ a b : WindowReg, a.offset = b.offset → a = b := by
    have h4 : Config.fbBytes = 64 := rfl
    intro a b hab
    cases a <;> cases b <;> simp only [WindowReg.offset] at hab <;>
      first | rfl | (exfalso; omega) | (congr 1; ext; omega)
  rw [hr', hinj r' r (offset_of_regAt hr')]

/-- A read of a register word, at its own offset. -/
theorem exec_regRd_offset (r : WindowReg) (s : State) :
    exec (.regRd r.offset) s = .next { s with rdata := some (readReg r s) } := execRegRd_some (regAt_offset r) s

/-- A write of a register word, at its own offset. -/
theorem exec_regWr_offset (r : WindowReg) (v : Word) (s : State) : exec (.regWr r.offset v) s = writeReg r v s :=
  execRegWr_some (regAt_offset r) v s

theorem regAt_inj {a b : Nat} {r : WindowReg} (ha : regAt a = some r) (hb : regAt b = some r) : a = b :=
  (offset_of_regAt ha).symm.trans (offset_of_regAt hb)

end Sys2Proof.Machine
end

