-- ==== Sys2Proof/Laws/Crc.lean ====
section
/-! SUPPORT. The CRC over lists of bytes: concatenation, one more byte, and what the CRC of a frame depends on. -/

namespace Sys2Proof.Machine

theorem crcOver_append (poly c : Half) (as bs : List Byte) :
    crcOver poly c (as ++ bs) = crcOver poly (crcOver poly c as) bs := by
  induction as generalizing c with
  | nil => rfl
  | cons a as ih => exact ih _

theorem crcOver_snoc (poly c : Half) (as : List Byte) (b : Byte) :
    crcOver poly c (as ++ [b]) = crcByteStep poly (crcOver poly c as) b := by
  rw [crcOver_append]; rfl

theorem frameBytes_zero (s : State) : frameBytes 0 s = [] := rfl

theorem frameBytes_succ {len : Nat} (h : len < Config.fbBytes) (s : State) :
    frameBytes (len + 1) s = frameBytes len s ++ [s.fb[len]] := by
  rw [frameBytes, frameBytes, List.take_add_one, List.getElem?_eq_getElem (by simpa using h)]
  simp

/-- The CRC reads no byte at or past its length, and no register but FB. -/
theorem frameBytes_congr {len : Nat} {s t : State}
    (h : ∀ j, j < len → (hj : j < Config.fbBytes) → s.fb[j] = t.fb[j]) : frameBytes len s = frameBytes len t := by
  apply List.ext_getElem
  · simp [frameBytes]
  · intro j h1 h2
    simp only [frameBytes, List.length_take, Vector.length_toList] at h1
    simpa [frameBytes] using h j (by omega) (by omega)

end Sys2Proof.Machine
end

