-- ==== Sys2Proof/Laws/Digest.lean ====
section
/-! SUPPORT. The schedule has 80 words, the rounds over a longer schedule continue those over a shorter one, and the
lanes of the fold. -/

namespace Sys2Proof.Machine

theorem extendSchedule_length (n : Nat) (ws : List Word) : (extendSchedule n ws).length = ws.length + n := by
  induction n generalizing ws with
  | zero => rfl
  | succ n ih => rw [extendSchedule, ih, List.length_append, List.length_singleton]; omega

theorem schedule_eq (blk : Vector Word 16) : schedule blk = extendSchedule 64 blk.toList := by
  rw [schedule, Vector.length_toList]

theorem schedule_length (blk : Vector Word 16) : (schedule blk).length = 80 := by
  rw [schedule_eq, extendSchedule_length, Vector.length_toList]

/-- A word already in the schedule stays. -/
theorem extendSchedule_getD_of_lt {t : Nat} (n : Nat) (ws : List Word) (h : t < ws.length) :
    (extendSchedule n ws).getD t 0 = ws.getD t 0 := by
  induction n generalizing ws with
  | zero => rfl
  | succ n ih =>
    rw [extendSchedule, ih _ (by rw [List.length_append]; omega), List.getD_append _ _ _ _ h]

theorem roundsFrom_append (t : Nat) (as bs : List Word) (v : Work) :
    roundsFrom t (as ++ bs) v = roundsFrom (t + as.length) bs (roundsFrom t as v) := by
  induction as generalizing t v with
  | nil => rfl
  | cons a as ih =>
    rw [List.cons_append, roundsFrom, ih, roundsFrom, List.length_cons, Nat.add_right_comm, Nat.add_assoc]

theorem foldMac_get (h : Vector Word 5) (j : Nat) (hj : j < 20) :
    (foldMac h)[j] = byteOf (j % 4) (h[4 - j / 4]'(by omega)) := by
  interval_cases j <;> rfl

end Sys2Proof.Machine
end

