-- ==== Sys2Proof/Laws/PerInstr.lean ====
section
/-! SUPPORT. One statement for every instruction: its encoding has the bits its row of spec/opcode_table.json
fixes. -/

namespace Sys2Proof.Laws.TableRow

/-- The encoded instruction is a command word with the row's fixed bits, or a bus header with them. -/
def Matches (e : Encoded) (mask row : Nat) : Prop :=
  match e with
  | .cmdw v => v &&& BitVec.ofNat 32 mask = BitVec.ofNat 32 row
  | .bus t => t.hdr &&& BitVec.ofNat 13 mask = BitVec.ofNat 13 row

/-- The mask and the match of the instruction's row. -/
def row (i : Instr) : Nat × Nat :=
  match i with
  | .nop => (0xFFFFFFFF, 0x00000000)
  | .clear => (0xFFFFFFFF, 0x00000001)
  | .macAssemble => (0xFFFFFFFF, 0x00000010)
  | .macDigest => (0xFFFFFFFF, 0x00000011)
  | .macFold => (0xFFFFFFFF, 0x00000012)
  | .macCompare => (0xFFFFFFFF, 0x00000013)
  | .macExpect => (0xFFFFFFFF, 0x00000014)
  | .macAuth => (0xFFFFFFFF, 0x00000015)
  | .crcCompute _ => (0xFFFF00FF, 0x00000020)
  | .crcValidate _ _ _ => (0x000000FF, 0x00000021)
  | .regRd _ => (0x1000, 0x0000)
  | .regWr _ _ => (0x1000, 0x1000)

/-- The encoding of `i` has the bits its row fixes. -/
def Statement (i : Instr) : Prop := Matches (encode i) (row i).1 (row i).2

theorem nop : Statement .nop := by show _ = _; decide
theorem clear : Statement .clear := by show _ = _; decide
theorem macAssemble : Statement .macAssemble := by show _ = _; decide
theorem macDigest : Statement .macDigest := by show _ = _; decide
theorem macFold : Statement .macFold := by show _ = _; decide
theorem macCompare : Statement .macCompare := by show _ = _; decide
theorem macExpect : Statement .macExpect := by show _ = _; decide
theorem macAuth : Statement .macAuth := by show _ = _; decide

theorem crcCompute (len : Nat) : Statement (.crcCompute len) := by
  show commandWord 0x20 len 0 0 &&& 0xFFFF00FF#32 = 0x00000020#32
  apply BitVec.eq_of_getLsbD_eq
  intro i hi
  rw [BitVec.getLsbD_and, commandWord, joined_getLsbD]
  split_ifs with h1 h2 h3
  · interval_cases i <;> simp
  · interval_cases i <;> simp
  · interval_cases i <;> simp
  · interval_cases i <;> simp

theorem crcValidate (len i1 i2 : Nat) : Statement (.crcValidate len i1 i2) := by
  show commandWord 0x21 len i1 i2 &&& 0x000000FF#32 = 0x00000021#32
  apply BitVec.eq_of_getLsbD_eq
  intro i hi
  rw [BitVec.getLsbD_and, commandWord, joined_getLsbD]
  split_ifs with h1 h2 h3
  · interval_cases i <;> simp
  · interval_cases i <;> simp
  · interval_cases i <;> simp
  · interval_cases i <;> simp

theorem header (we : Bool) (off : Nat) :
    busHeader we off &&& 0x1000#13 = if we then 0x1000#13 else 0x0000#13 := by
  apply BitVec.eq_of_getLsbD_eq
  intro i hi
  rw [BitVec.getLsbD_and]
  by_cases h : i = 12
  · subst h; rw [busHeader_we]; cases we <;> decide
  · have hz : (0x1000#13).getLsbD i = false := by interval_cases i <;> first | rfl | omega
    rw [hz, Bool.and_false]; cases we
    · simp
    · exact hz.symm

theorem regRd (off : Nat) : Statement (.regRd off) := header false off
theorem regWr (off : Nat) (data : Word) : Statement (.regWr off data) := header true off

end Sys2Proof.Laws.TableRow
end

