-- ==== Sys2Proof/Tests/Slice0.lean ====
section
/-! SUPPORT. The model's own tests. Expected values come from spec/95_test_vectors.md (the vector is named beside each
test) or from an encoding written out bit by bit; a theorem `witness_…` gives a state and operands that meet the
hypotheses of an obligation, at the boundary values of its ranges. -/

namespace Sys2Proof.Tests

open Sys2Proof.Machine

/- A test runs a whole command: the 80 rounds of a digest are a deep term. -/
set_option maxRecDepth 100000

/-! ### Helpers -/

/-- The block right after CLEAR, the start state of most vectors. -/
def zero : State := State.reset.cleared

/-- `zero` with the frame `bs` at the start of FB. -/
def framed (bs : List Byte) : State := { zero with fb := Vector.ofFn fun j => bs.getD j.val 0 }

/-- `zero` with a STATUS. -/
def withStatus (err : ErrCode) (errSticky frameOk macEq : Bool) : State :=
  { zero with status := { err := err, errSticky := errSticky, frameOk := frameOk, macEq := macEq } }

/-- What `f` sees of the state after `i`; none where `i` does not complete. -/
def after {α : Type} (i : Instr) (s : State) (f : State → α) : Option α :=
  match exec i s with
  | .next t => some (f t)
  | .fault _ => none
  | .refused _ => none

/-- What `f` sees of the state after one step. -/
def afterStep {α : Type} (s : State) (f : State → α) : Option α :=
  match step s with
  | .next t => some (f t)
  | .fault _ => none
  | .refused _ => none

/-- STATUS as the host reads it. -/
def statusOf (s : State) : Word := s.status.toWord

/-- The frame of V-CRC-6 with its two CRC bytes. -/
def frame6 : List Byte := [0x0F, 0x20, 0, 0, 0, 0, 0, 0x01, 0x02, 0x03, 0, 0x6E, 0x4D]

/-- The inputs of V-ASM-2. -/
def inputs2 : State := { zero with
  paddr := 0x0020, chal := #v[0x01, 0x02, 0x03], id := #v[0x01, 0x23, 0x45, 0x67, 0x89, 0xAB, 0xCD, 0xEF] }

/-- The inputs of V-ASM-7. -/
def inputs7 : State := { zero with
  paddr := 0x0040
  page := Vector.ofFn fun j => BitVec.ofNat 8 j.val
  sec := #v[0x11, 0x22, 0x33, 0x44, 0x55, 0x66, 0x77, 0x88]
  chal := #v[0xA1, 0xB2, 0xC3]
  id := #v[0x33, 0x01, 0x02, 0x03, 0x04, 0x05, 0x06, 0x9C] }

/-- The MAC of V-EXP-1. -/
def mac1 : Vector Byte 20 :=
  #v[0x6F, 0x1D, 0xC3, 0x78, 0x5B, 0xBA, 0xC6, 0xE8, 0xA4, 0xE6, 0x13, 0x40, 0x29, 0x7B, 0x31, 0xE3, 0x73, 0x1B, 0xCA,
    0xDC]

/-- The MAC of V-FOLD-1. -/
def macFold1 : Vector Byte 20 :=
  #v[0xA3, 0x58, 0x24, 0x46, 0xF2, 0xEA, 0xD2, 0xAE, 0x50, 0xF0, 0x5F, 0xD3, 0x64, 0xE1, 0x8A, 0x66, 0xE4, 0xE1, 0x6E,
    0x2B]

/-! ### Well-formedness: an ill-formed term for each check -/

theorem test_wellFormed_len : (Instr.crcCompute 255).wellFormed = true ∧ (Instr.crcCompute 256).wellFormed = false := by
  decide
theorem test_wellFormed_validate_len : (Instr.crcValidate 256 0 0).wellFormed = false := by decide
theorem test_wellFormed_validate_i1 : (Instr.crcValidate 0 256 0).wellFormed = false := by decide
theorem test_wellFormed_validate_i2 : (Instr.crcValidate 0 0 256).wellFormed = false := by decide
theorem test_wellFormed_read_off : (Instr.regRd 4095).wellFormed = true ∧ (Instr.regRd 4096).wellFormed = false := by
  decide
theorem test_wellFormed_write_off : (Instr.regWr 4096 0).wellFormed = false := by decide

/-! ### Decoding, words written out by fields `C_B_A_op` (30_encoding.md R70, R71) and `we_off` (R77) -/

theorem test_decode_nop : decodeCommand 0b00000000_00000000_00000000_00000000#32 = .ok .nop := by decide
theorem test_decode_clear : decodeCommand 0b00000000_00000000_00000000_00000001#32 = .ok .clear := by decide
theorem test_decode_macAssemble : decodeCommand 0b00000000_00000000_00000000_00010000#32 = .ok .macAssemble := by decide
theorem test_decode_macDigest : decodeCommand 0b00000000_00000000_00000000_00010001#32 = .ok .macDigest := by decide
theorem test_decode_macFold : decodeCommand 0b00000000_00000000_00000000_00010010#32 = .ok .macFold := by decide
theorem test_decode_macCompare : decodeCommand 0b00000000_00000000_00000000_00010011#32 = .ok .macCompare := by decide
theorem test_decode_macExpect : decodeCommand 0b00000000_00000000_00000000_00010100#32 = .ok .macExpect := by decide
theorem test_decode_macAuth : decodeCommand 0b00000000_00000000_00000000_00010101#32 = .ok .macAuth := by decide
theorem test_decode_crcCompute :
    decodeCommand 0b00000000_00000000_10000001_00100000#32 = .ok (.crcCompute 129) := by decide
theorem test_decode_crcValidate :
    decodeCommand 0b00001100_00001011_00000111_00100001#32 = .ok (.crcValidate 7 11 12) := by decide
theorem test_decode_regRd : decodeBus ⟨0b0_100000000001#13, 0xFFFFFFFF⟩ = .regRd 0x801 := by decide
theorem test_decode_regWr : decodeBus ⟨0b1_100000000001#13, 0x12345678⟩ = .regWr 0x801 0x12345678 := by decide

/-- V-ENC-3 to V-ENC-6: unassigned opcodes. -/
theorem test_decode_unassigned : [0x00000002, 0x00000016, 0x00000022, 0x000000FF].map decodeCommand =
    List.replicate 4 (.error .unassignedOpcode) := by decide

/-- V-ENC-7 to V-ENC-10: nonzero reserved fields. -/
theorem test_decode_reserved : [0x00000100, 0x01000011, 0x00010920, 0x0001FF20].map decodeCommand =
    List.replicate 4 (.error .reservedField) := by decide

/-- The words of the opcode table as the host numbers them: a command word, the low byte of one, a bus header. -/
theorem test_decodeTableWord :
    decodeTableWord 32 0x00000015 = some .macAuth ∧ decodeTableWord 8 0x21 = some (.crcValidate 0 0 0) ∧
    decodeTableWord 16 0x0004 = some (.regRd 0x004) ∧ decodeTableWord 16 0x1010 = some (.regWr 0x010 0) ∧
    decodeTableWord 48 0xAB0302011014 = some (.regWr 0x014 0xAB030201) ∧
    decodeTableWord 32 0x00000111 = none ∧ decodeTableWord 16 0x2000 = none := by decide

/-- The first instruction after reset is the one placed: the step that fetches it is its meaning. -/
theorem test_withFetchWord :
    step (State.reset.withFetchWord 16 0x0004) = exec (.regRd 0x004) State.reset ∧
    step (State.reset.withFetchWord 32 0x00000000) = exec .nop State.reset ∧
    step (State.reset.withFetchWord 32 0x00000015) = exec .macAuth State.reset := ⟨rfl, rfl, rfl⟩

/-! ### Control -/

/-- V-CTL-1. -/
theorem test_nop_clears_err : after .nop (withStatus .bus true true false) statusOf = some 0x00000101 := by decide
/-- V-CTL-2. -/
theorem test_nop_keeps_results : after .nop (withStatus .none false true true) statusOf = some 0x00000003 := by decide
/-- V-CTL-3, with a nonzero PADDR. -/
theorem test_clear : after .clear { withStatus .bus true true false with paddr := 0x0020 }
    (fun t => (statusOf t, t.paddr)) = some (0x00000000, 0x0000) := by decide
/-- V-CTL-4: CLEAR with A = 1 clears nothing. -/
theorem test_clear_reserved : after (.regWr 0x000 0x00000101) { withStatus .none false true true with paddr := 0x0020 }
    (fun t => (statusOf t, t.paddr)) = some (0x00000113, 0x0020) := by decide

/-! ### Host access -/

/-- V-HA-6: a misaligned read. -/
theorem test_regRd_misaligned : after (.regRd 0x002) zero (fun t => (t.rdata, statusOf t)) =
    some (some 0x00000000, 0x00000130) := by decide
/-- V-HA-14 and V-CRC-12: STATUS by its fields, and a good read keeps ERR. -/
theorem test_regRd_status : after (.regRd 0x004) (withStatus .range true true false) (fun t => (t.rdata, statusOf t)) =
    some (some 0x00000121, 0x00000121) := by decide
/-- V-HA-15: the last word of FB, first byte in the low lane. -/
theorem test_regWr_lanes : after (.regWr 0x23C 0xA1B2C3D4) zero (fun t => (t.fb[60], t.fb[61], t.fb[62], t.fb[63])) =
    some (0xD4, 0xC3, 0xB2, 0xA1) := by decide
/-- V-ERR-4: misaligned and in H. -/
theorem test_regWr_error : after (.regWr 0x081 0) (withStatus .none false false true) statusOf = some 0x00000132 := by
  decide

/-! ### CRC unit -/

/-- V-CRC-1: "123456789". -/
theorem test_crcCompute : after (.crcCompute 9) (framed [0x31, 0x32, 0x33, 0x34, 0x35, 0x36, 0x37, 0x38, 0x39])
    (fun t => (t.crc, statusOf t)) = some (0xBB3D, 0x00000000) := by decide
/-- V-CRC-12, second half: FRAME_OK untouched, ERR cleared, ERR_STICKY kept. -/
theorem test_crcCompute_whole : after (.crcCompute 64)
    { framed [0xFF] with status := { err := .range, errSticky := true, frameOk := true, macEq := false } }
    (fun t => (t.crc, statusOf t)) = some (0x107F, 0x00000101) := by decide
/-- V-CRC-6: an accepted frame. -/
theorem test_crcValidate : after (.crcValidate 11 11 12) (framed frame6) (fun t => (t.crc, statusOf t)) =
    some (0xB291, 0x00000001) := by decide
/-- V-CRC-11 f, on a STATUS with an old FRAME_OK: the window covers the first CRC byte. -/
theorem test_crcValidate_rejects : after (.crcValidate 12 11 12)
    { framed frame6 with status := { err := .none, errSticky := false, frameOk := true, macEq := false } }
    (fun t => (t.crc, statusOf t)) = some (0x40F2, 0x00000000) := by decide

/-! ### MAC unit -/

/-- V-ASM-7. -/
theorem test_macAssemble : after .macAssemble inputs7 (fun t => t.w) = some
    #v[0x11223344, 0x00010203, 0x04050607, 0x08090A0B, 0x0C0D0E0F, 0x10111213, 0x14151617, 0x18191A1B, 0x1C1D1E1F,
      0xFFFFFFFF, 0x42330102, 0x03040506, 0x55667788, 0xA1B2C380, 0x00000000, 0x000001B8] := by decide
/-- V-ASM-1: PADDR FFFF gives PT 47. -/
theorem test_macAssemble_pageType : after .macAssemble { zero with paddr := 0xFFFF } (fun t => t.w[10]) =
    some 0x47000000 := by decide

/-- V-MAC-1. -/
theorem test_macDigest_zero : after .macDigest zero (fun t => t.h) =
    some #v[0x2B6EE1E4, 0x668AE164, 0xD35FF050, 0xAED2EAF2, 0x462458A3] := by decide

/-- V-MAC-5: "abc". -/
theorem test_macDigest_abc : after .macDigest
    { zero with w := #v[0x61626380, 0, 0, 0, 0, 0, 0, 0, 0, 0, 0, 0, 0, 0, 0, 0x00000018] } (fun t => t.h) =
    some #v[0x42541B35, 0x5738D5E1, 0x21834873, 0x681E6DF6, 0xD8FDF6AD] := by decide

/-- V-FOLD-1. -/
theorem test_macFold : after .macFold
    { zero with h := #v[0x2B6EE1E4, 0x668AE164, 0xD35FF050, 0xAED2EAF2, 0x462458A3] } (fun t => t.mac) =
    some macFold1 := by decide
/-- V-FOLD-4: the lane order. -/
theorem test_macFold_lanes : after .macFold { zero with h := #v[1, 2, 3, 4, 5] } (fun t => t.mac) =
    some #v[5, 0, 0, 0, 4, 0, 0, 0, 3, 0, 0, 0, 2, 0, 0, 0, 1, 0, 0, 0] := by decide

/-- V-CMP-1. -/
theorem test_macCompare_equal : after .macCompare { zero with mac := macFold1, dmac := macFold1 } statusOf =
    some 0x00000002 := by decide
/-- V-CMP-2: the last byte differs, and an old MAC_EQ goes. -/
theorem test_macCompare_differs : after .macCompare
    { withStatus .none false false true with mac := macFold1, dmac := macFold1.set 19 0x2A } statusOf =
    some 0x00000000 := by decide

/-- V-EXP-1. -/
theorem test_macExpect : after .macExpect inputs2 (fun t => (t.mac, statusOf t)) = some (mac1, 0x00000000) := by decide

/-- V-EXP-7. -/
theorem test_macExpect_page : after .macExpect inputs7 (fun t => t.h) =
    some #v[0x115B2CA8, 0x379EE143, 0x19EB6E41, 0x344D57F9, 0x86A3F930] := by decide

/-- V-AUTH-1. -/
theorem test_macAuth : after .macAuth { inputs2 with dmac := mac1 } statusOf = some 0x00000002 := by decide

/-- V-AUTH-2: a different secret. -/
theorem test_macAuth_secret : after .macAuth { inputs2 with dmac := mac1, sec := #v[1, 0, 0, 0, 0, 0, 0, 0] } statusOf =
    some 0x00000000 := by decide

/-! ### Witnesses: hypotheses of the obligations, met -/

/-- IssuedBy: for each command without operands, another word with its opcode. -/
theorem witness_issuedBy :
    ∀ op ∈ [0x00, 0x01, 0x10, 0x11, 0x12, 0x13, 0x14, 0x15],
      (commandWord op 1 0 0).extractLsb' 0 8 = (BitVec.ofNat 32 op).extractLsb' 0 8 ∧
      commandWord op 1 0 0 ≠ BitVec.ofNat 32 op := by decide

/-- CommandWordsDecodeInRuleOrder: a word for each of the four cases. -/
theorem witness_commandWords :
    (0x00000016#32).extractLsb' 0 8 ∉ [0x00#8, 0x01#8, 0x10#8, 0x11#8, 0x12#8, 0x13#8, 0x14#8, 0x15#8, 0x20#8, 0x21#8] ∧
    ((0x0001FF20#32).extractLsb' 0 8 = 0x20#8 ∧ (0x0001FF20#32).extractLsb' 16 8 ≠ 0) ∧
    ((0x00000111#32).extractLsb' 0 8 = 0x11#8 ∧ (0x00000111#32).extractLsb' 8 8 ≠ 0) ∧
    ((0xFFFFFF21#32).extractLsb' 0 8 = 0x21#8 ∧ (0xFFFFFF21#32).extractLsb' 24 8 = 0xFF#8) := by decide

/-- DecodeOfEncodeIsIdentity, at the largest operands. -/
theorem witness_wellFormed : (Instr.crcValidate 255 255 255).wellFormed = true ∧
    (Instr.crcCompute 255).wellFormed = true ∧ (Instr.regRd 0xFFF).wellFormed = true ∧
    (Instr.regWr 0xFFF 0xFFFFFFFF).wellFormed = true ∧ Instr.macAuth.wellFormed = true := by decide

/-- EncodeOfDecodeIsIdentity: a word that decodes, and a header with `we` = 1. -/
theorem witness_decodes : decodeCommand 0xFFFFFF21 = .ok (.crcValidate 255 255 255) ∧
    (BusTxn.mk 0x1FFF 0).hdr.getLsbD 12 = true := by decide

/-- StepRunsTheDecodedInstruction: each of its four clauses. -/
theorem witness_step :
    (({ zero with pending := [.access (Encoded.cmdw 0x00000015).toBus, .hardReset] } : State).pending =
      .access (Encoded.cmdw 0x00000015).toBus :: [.hardReset] ∧ decode (.cmdw 0x00000015) = .ok .macAuth) ∧
    (({ zero with pending := [.access (Encoded.cmdw 0x00000111).toBus] } : State).pending =
      .access (Encoded.cmdw 0x00000111).toBus :: [] ∧ decode (.cmdw 0x00000111) = .error .reservedField) ∧
    State.reset.pending = [] ∧
    ({ zero with pending := [.hardReset] } : State).pending = .hardReset :: [] := by decide

/-- StepKeepsErrorsSticky: a state with an error, its invariant, and a step from it that clears the code. -/
theorem witness_errIsSticky :
    ∃ s t : State, s.status.err = .range ∧ s.ErrIsSticky ∧ step s = .next t ∧ t.status.err = .none :=
  ⟨{ withStatus .range true false false with pending := [.access (Encoded.cmdw 0x00000000).toBus] }, _,
    rfl, fun _ => rfl, rfl, rfl⟩

/-- Raises: an instruction and a state for each code, a write of an illegal word to CMD among them
(RaisingChangesOnlyErrAndSticky, StickyClearedOnlyByClearOrReset, CausesOfEveryError). -/
theorem witness_raises :
    Raises (.crcCompute 65) zero .range ∧ Raises (.crcValidate 0 64 0) zero .range ∧
    Raises (.regWr 0x000 0x00000111) zero .illegalCmd ∧ Raises (.regWr 0x000 0x00004120) zero .range ∧
    Raises (.regRd 0x240) zero .bus ∧ Raises (.regWr 0x081 0) zero .bus ∧ Raises (.regWr 0x004 0) zero .bus :=
  ⟨⟨by decide, _, rfl, rfl⟩, ⟨by decide, _, rfl, rfl⟩, ⟨by decide, _, rfl, rfl⟩, ⟨by decide, _, rfl, rfl⟩,
    ⟨by decide, _, rfl, rfl⟩, ⟨by decide, _, rfl, rfl⟩, ⟨by decide, _, rfl, rfl⟩⟩

/-- StickyClearedOnlyByClearOrReset: a reset pending, and an instruction that keeps a set ERR_STICKY. -/
theorem witness_sticky :
    ({ withStatus .bus true false false with pending := [.hardReset] } : State).pending = .hardReset :: [] ∧
    Instr.nop ≠ .clear ∧ Instr.nop ≠ .regWr 0x000 0x00000001 ∧
    (withStatus .bus true false false).status.errSticky = true ∧
    after .nop (withStatus .bus true false false) (fun t => t.status.errSticky) = some true := by decide

/-- CompletingClearsErrAndKeepsSticky: a command that raises nothing, where ERR and ERR_STICKY are set. -/
theorem witness_completes : Instr.nop.isCommand = true ∧
    (∀ c, ¬ Raises .nop (withStatus .bus true false false) c) ∧ Instr.nop ≠ .clear ∧
    ∃ t, exec .nop (withStatus .bus true false false) = .next t :=
  ⟨rfl, fun _ ⟨hc, _, h, ht⟩ => by cases h; exact hc ht.symm, by decide, _, rfl⟩

/-- WritersOfEachRegister: for each register an instruction of the table that changes it. -/
theorem witness_writers :
    after (.crcValidate 11 11 12) (framed frame6) (fun t => t.status.frameOk) = some true ∧
    after .macCompare zero (fun t => t.status.macEq) = some true ∧
    after .nop (withStatus .bus true false false) (fun t => t.status.err) = some .none ∧
    after (.regRd 0xFFC) zero (fun t => (t.status.err, t.status.errSticky)) = some (.bus, true) ∧
    after (.crcCompute 2) (framed [1]) (fun t => decide (t.crc ≠ 0)) = some true ∧
    after (.regWr 0x010 1) zero (fun t => t.paddr) = some 1 ∧
    after (.regWr 0x014 1) zero (fun t => t.chal[0]) = some 1 ∧
    after (.regWr 0x01C 1) zero (fun t => t.sec[4]) = some 1 ∧
    after (.regWr 0x024 1) zero (fun t => t.id[4]) = some 1 ∧
    after (.regWr 0x0D0 1) zero (fun t => t.dmac[16]) = some 1 ∧
    after (.regWr 0x11C 1) zero (fun t => t.page[28]) = some 1 ∧
    after (.regWr 0x23C 1) zero (fun t => t.fb[60]) = some 1 ∧
    after (.regWr 0x07C 1) zero (fun t => t.w[15]) = some 1 ∧
    after .macDigest zero (fun t => decide (t.h ≠ zero.h)) = some true ∧
    after .macFold { zero with h := #v[1, 0, 0, 0, 0] } (fun t => t.mac[16]) = some 1 := by decide

/-- The first and the last word of each register of the map (R52), and the reserved word behind it: the ranges of
BusReadReturnsTheRegister and BusWriteStoresTheWord. -/
theorem witness_map :
    regAt 0x000 = some .cmd ∧ regAt 0x004 = some .status ∧ regAt 0x008 = some .crc ∧ regAt 0x00C = none ∧
    regAt 0x010 = some .paddr ∧ regAt 0x014 = some .chal ∧ regAt 0x018 = some (.sec 0) ∧ regAt 0x01C = some (.sec 1) ∧
    regAt 0x020 = some (.id 0) ∧ regAt 0x024 = some (.id 1) ∧ regAt 0x028 = none ∧
    regAt 0x040 = some (.w 0) ∧ regAt 0x07C = some (.w 15) ∧ regAt 0x080 = some (.h 0) ∧ regAt 0x090 = some (.h 4) ∧
    regAt 0x094 = none ∧ regAt 0x0A0 = some (.mac 0) ∧ regAt 0x0B0 = some (.mac 4) ∧ regAt 0x0B4 = none ∧
    regAt 0x0C0 = some (.dmac 0) ∧ regAt 0x0D0 = some (.dmac 4) ∧ regAt 0x0D4 = none ∧
    regAt 0x100 = some (.page 0) ∧ regAt 0x11C = some (.page 7) ∧ regAt 0x120 = none ∧
    regAt 0x200 = some (.fb ⟨0, by decide⟩) ∧ regAt 0x23C = some (.fb ⟨15, by decide⟩) ∧ regAt 0x240 = none ∧ regAt 0xFFC = none := by decide

/-- The misaligned, reserved and read-only offsets of BusRead…, BusWrite…, MisalignedAccesses… and
ReservedOffsets…, at both ends of each range, and what lies just beside. -/
theorem witness_offsets :
    (∀ off ∈ [0x00C, 0x00F, 0x028, 0x03F, 0x094, 0x09F, 0x0B4, 0x0BF, 0x0D4, 0x0FF, 0x120, 0x1FF, 0x240, 0xFFF],
      reservedOffset off = true) ∧
    (∀ off ∈ [0x000, 0x00B, 0x010, 0x027, 0x040, 0x093, 0x0A0, 0x0B3, 0x0C0, 0x0D3, 0x100, 0x11F, 0x200, 0x23F],
      reservedOffset off = false) ∧
    (∀ off ∈ [0x004, 0x00B, 0x080, 0x093, 0x0A0, 0x0B3], readOnlyOffset off = true) ∧
    (∀ off ∈ [0x001, 0x002, 0x003, 0x081, 0xFFF], off % 4 ≠ 0) ∧
    decode (.cmdw 0x00000920) = .ok (.crcCompute 9) ∧ decode (.cmdw 0x00000022) = .error .unassignedOpcode := by decide

/-- WriteThenReadReturnsTheWord, WriteLeavesEveryOtherWord, AccessesAreIdempotent: the first and the last word of each
register the host may write. -/
theorem witness_dataOffsets :
    ∀ off ∈ [0x010, 0x014, 0x018, 0x01C, 0x020, 0x024, 0x040, 0x07C, 0x0C0, 0x0D0, 0x100, 0x11C, 0x200, 0x23C],
      off % 4 = 0 ∧ dataOffset off = true ∧ off ≠ 0x000 ∧ 0x004 ≠ off := by decide

/-- FrameByteIsWrittenByItsWord: the last byte of FB. -/
theorem witness_frameByte : 63 < Config.fbBytes ∧ 0x200 + 4 * (63 / 4) = 0x23C := by decide

/-- The CRC statements' operands: a reserved field, the ends of the ranges of R104. -/
theorem witness_crcOperands :
    (0x01#8 ≠ 0 ∨ 0x00#8 ≠ 0) ∧ (65 > Config.fbBytes ∧ 64 ≥ Config.fbBytes) ∧
    (64 ≤ Config.fbBytes ∧ 63 < Config.fbBytes) ∧
    after (.crcValidate 64 63 63) zero statusOf = some 0x00000000 ∧
    after (.crcValidate 255 0 0) zero statusOf = some 0x00000120 ∧
    after (.crcValidate 0 0 255) zero statusOf = some 0x00000120 := by decide

/-- FrameWithItsCrcHasTheResidue: V-CRC-9, the frame of V-CRC-6 with its CRC bytes. -/
theorem witness_residue : 11 + 2 ≤ Config.fbBytes ∧
    (framed frame6).fb[11] = (~~~ crc16 11 (framed frame6)).extractLsb' 0 8 ∧
    (framed frame6).fb[12] = (~~~ crc16 11 (framed frame6)).extractLsb' 8 8 ∧
    after (.crcCompute 13) (framed frame6) (fun t => t.crc) = some 0xB001 := by decide

/-- SingleBitCorruptionIsRejected: the frame of V-CRC-6 is accepted, and the flip of V-CRC-10 leaves CRC 7E50. -/
theorem witness_corruption :
    (∃ t, exec (.crcValidate 11 11 (11 + 1)) (framed frame6) = .next t ∧ t.status.frameOk = true) ∧
    12 < 11 + 2 ∧ 7 < 8 ∧
    after (.crcValidate 11 11 12) { framed frame6 with fb := (framed frame6).fb.set 3 0x01 }
      (fun t => (t.crc, t.status.frameOk)) = some (0x7E50, false) :=
  ⟨⟨_, rfl, by decide⟩, by decide, by decide, by decide⟩

/-- CrcReadsOnlyTheFrame: two states that differ only past the bytes the command reads. -/
theorem witness_crcReads :
    framed frame6 ≠ framed (frame6 ++ [0x55]) ∧
    (∀ j, j < 11 → ∀ h : j < Config.fbBytes, (framed frame6).fb[j] = (framed (frame6 ++ [0x55])).fb[j]) ∧
    (framed frame6).fb[11] = (framed (frame6 ++ [0x55])).fb[11] ∧
    (framed frame6).fb[12] = (framed (frame6 ++ [0x55])).fb[12] ∧
    (∃ t, exec (.crcValidate 11 11 12) (framed frame6) = .next t) ∧
    ∃ t, exec (.crcValidate 11 11 12) (framed (frame6 ++ [0x55])) = .next t :=
  ⟨by decide, by decide, by decide, by decide, ⟨_, rfl⟩, ⟨_, rfl⟩⟩

/-- DigestAndMacAreNotViews: the last word of W. -/
theorem witness_lastWord : 15 < 16 ∧ regAt (0x040 + 4 * 15) = some (.w 15) := by decide

/-- MacBlockConstantsAreFixed: each of the three commands. -/
theorem witness_assembling : ∀ i ∈ [Instr.macAssemble, .macExpect, .macAuth],
    i = .macAssemble ∨ i = .macExpect ∨ i = .macAuth := by decide

/-- AuthReadsOnlyItsInputs: PADDR 0020 and 003F (V-ASM-1), ID[7] and FB different, the MAC's inputs equal. -/
theorem witness_authInputs :
    ∃ s t s' t' : State, s.paddr = 0x0020 ∧ t.paddr = 0x003F ∧ s.id[7] ≠ t.id[7] ∧ s.fb ≠ t.fb ∧
      s.paddr.extractLsb' 5 3 = t.paddr.extractLsb' 5 3 ∧ s.page = t.page ∧ s.sec = t.sec ∧ s.chal = t.chal ∧
      (∀ j, ∀ h : j < 7, s.id[j] = t.id[j]) ∧ s.dmac = t.dmac ∧
      exec .macAuth s = .next s' ∧ exec .macAuth t = .next t' :=
  ⟨inputs2, { inputs2 with paddr := 0x003F, id := inputs2.id.set 7 0, fb := inputs2.fb.set 0 1 }, _, _,
    rfl, rfl, by decide, by decide, by decide, rfl, rfl, rfl, by decide, rfl, rfl, rfl⟩

/-- ResetLeavesStatusZeroAndDataDrawn: a pending reset, and the first and the last offset of its last clause. -/
theorem witness_reset :
    ({ withStatus .bus true true true with pending := [.hardReset] } : State).pending = .hardReset :: [] ∧
    ∀ off ∈ [0x018, 0x0B0, 0x23C], off % 4 = 0 ∧ 0x018 ≤ off ∧ reservedOffset off = false := by decide

/-- LdfbLoadsTheFrame, both clauses: program P1's 13 bytes go out as its four writes, 65 bytes do not expand. -/
theorem witness_ldfb :
    ldfb frame6 = some [.regWr 0x200 0x0000200F, .regWr 0x204 0x01000000, .regWr 0x208 0x6E000302,
      .regWr 0x20C 0x0000004D] ∧
    Config.fbBytes < (List.replicate 65 0#8).length ∧ (List.replicate 64 0#8).length ≤ Config.fbBytes ∧
    ldfb (List.replicate 65 0#8) = none := by decide

end Sys2Proof.Tests
end

section
/-! PROOFS, the state (10_state.md). What an instruction can do is said once: `errorCode` names the error it raises,
which no state decides, `exec_of_errorCode` the state a raise leaves, and `exec_effect` every next state there is. The
writers of the registers (R41) and the rules of ERR_STICKY (R28) are read off from these. -/

namespace Sys2Proof.Machine

variable {s t : State} {i : Instr} {c : ErrCode}

/-! ### The error an instruction raises (60_exceptions.md R170) -/

/-- The error a command raises: RANGE for a CRC operand outside FB (41_crc.md R104). -/
def commandError (i : Instr) : Option ErrCode :=
  match i with
  | .crcCompute len => if len ≤ Config.fbBytes then none else some .range
  | .crcValidate len i1 i2 =>
    if len ≤ Config.fbBytes ∧ i1 < Config.fbBytes ∧ i2 < Config.fbBytes then none else some .range
  | _ => none

/-- The error of a write of `v` to the register word `r`: the command's own for CMD, BUS for a read-only register
(60_exceptions.md R173, R176). -/
def writeError (r : WindowReg) (v : Word) : Option ErrCode :=
  match r with
  | .cmd =>
    match decodeCommand v with
    | .ok cmd => commandError cmd
    | .error _ => some .illegalCmd
  | .status | .crc | .h _ | .mac _ => some .bus
  | _ => none

/-- The error an instruction raises, if any: it depends on the instruction alone, not on the state. -/
def errorCode (i : Instr) : Option ErrCode :=
  match i with
  | .regRd off => if regAt off = none then some .bus else none
  | .regWr off v =>
    match regAt off with
    | none => some .bus
    | some r => writeError r v
  | cmd => commandError cmd

theorem commandError_crcCompute {len : Nat} :
    commandError (.crcCompute len) = some c ↔ Config.fbBytes < len ∧ c = .range := by
  rw [commandError]
  split
  next h => simp [Nat.not_lt.mpr h]
  next h => simp [Nat.lt_of_not_le h, eq_comm]

theorem commandError_crcValidate {len i1 i2 : Nat} :
    commandError (.crcValidate len i1 i2) = some c ↔
      (Config.fbBytes < len ∨ Config.fbBytes ≤ i1 ∨ Config.fbBytes ≤ i2) ∧ c = .range := by
  rw [commandError]
  split
  next h => exact iff_of_false nofun (by omega)
  next h => simp only [Option.some.injEq, eq_comm, iff_and_self]; omega

theorem errorCode_regRd {off : Nat} : errorCode (.regRd off) = some c ↔ regAt off = none ∧ c = .bus := by
  rw [errorCode]
  split
  next h => simp [h, eq_comm]
  next h => simp [h]

theorem errorCode_regWr_none {off : Nat} (h : regAt off = none) (v : Word) : errorCode (.regWr off v) = some .bus := by
  simp only [errorCode, h]

theorem errorCode_regWr_some {off : Nat} {r : WindowReg} (h : regAt off = some r) (v : Word) :
    errorCode (.regWr off v) = writeError r v := by
  simp only [errorCode, h]

theorem errorCode_regWr_zero (v : Word) : errorCode (.regWr 0x000 v) = writeError .cmd v :=
  errorCode_regWr_some (regAt_offset .cmd) v

theorem errorCode_command (h : i.isCommand = true) : errorCode i = commandError i := by
  cases i with
  | regRd | regWr => cases h
  | _ => rfl

theorem writeError_cmd_ok {v : Word} (h : decodeCommand v = .ok i) : writeError .cmd v = commandError i := by
  simp only [writeError, h]

theorem writeError_cmd_error {v : Word} {e : DecodeError} (h : decodeCommand v = .error e) :
    writeError .cmd v = some .illegalCmd := by
  simp only [writeError, h]

/-- A legal word written to CMD raises what its command raises. -/
theorem errorCode_regWr_cmd {v : Word} (h : decodeCommand v = .ok i) : errorCode (.regWr 0x000 v) = errorCode i := by
  rw [errorCode_regWr_zero, writeError_cmd_ok h, errorCode_command (decodeCommand_isCommand h).1]

theorem commandError_eq_range (h : commandError i = some c) : c = .range := by
  cases i with
  | crcCompute => exact (commandError_crcCompute.mp h).2
  | crcValidate => exact (commandError_crcValidate.mp h).2
  | _ => cases h

/-- Away from CMD, a write raises BUS or nothing. -/
theorem writeError_eq_bus {r : WindowReg} {v : Word} (hr : r ≠ .cmd) (h : writeError r v = some c) : c = .bus := by
  cases r with
  | cmd => exact absurd rfl hr
  | status | crc | h | mac => cases h; rfl
  | _ => cases h

theorem writeError_ne_none {r : WindowReg} {v : Word} (h : writeError r v = some c) : c ≠ .none := by
  by_cases hr : r = .cmd
  · subst hr
    cases hd : decodeCommand v with
    | ok => rw [writeError_cmd_ok hd] at h; cases commandError_eq_range h; decide
    | error => rw [writeError_cmd_error hd] at h; cases h; decide
  · cases writeError_eq_bus hr h; decide

theorem errorCode_ne_none (h : errorCode i = some c) : c ≠ .none := by
  cases i with
  | regRd off => cases (errorCode_regRd.mp h).2; decide
  | regWr off v =>
    cases hr : regAt off with
    | none => rw [errorCode_regWr_none hr] at h; cases h; decide
    | some r => rw [errorCode_regWr_some hr] at h; exact writeError_ne_none h
  | _ => rw [errorCode_command rfl] at h; cases commandError_eq_range h; decide

/-- A bus access other than a write of CMD raises BUS or nothing (60_exceptions.md R175, R176). -/
theorem errorCode_eq_bus (hc : i.isCommand = false) (hi : ∀ v, i ≠ .regWr 0x000 v) (h : errorCode i = some c) :
    c = .bus := by
  cases i with
  | regRd off => exact (errorCode_regRd.mp h).2
  | regWr off v =>
    cases hr : regAt off with
    | none => rw [errorCode_regWr_none hr] at h; cases h; rfl
    | some r =>
      rw [errorCode_regWr_some hr] at h
      refine writeError_eq_bus ?_ h
      rintro rfl
      exact hi v (by rw [← offset_of_regAt hr]; rfl)
  | _ => cases hc

/-! ### The state a raise leaves (60_exceptions.md R171) -/

/-- The `rdata` after a raise: a read that raises returns 0, and nothing else answers. -/
def errorAnswer (i : Instr) (s : State) : Option Word :=
  match i with
  | .regRd _ => some 0
  | _ => s.rdata

theorem exec_of_commandError (h : commandError i = some c) (s : State) : exec i s = .next (s.err c) := by
  cases commandError_eq_range h
  cases i with
  | crcCompute => exact execCrcCompute_outOfRange (commandError_crcCompute.mp h).1 s
  | crcValidate => exact execCrcValidate_outOfRange (commandError_crcValidate.mp h).1 s
  | _ => cases h

theorem writeReg_of_writeError {r : WindowReg} {v : Word} (h : writeError r v = some c) (s : State) :
    writeReg r v s = .next (s.err c) := by
  cases r with
  | cmd =>
    cases hd : decodeCommand v with
    | ok cmd =>
      rw [writeError_cmd_ok hd] at h
      rw [← exec_regWr_offset, WindowReg.offset, exec_regWr_cmd_ok hd, exec_of_commandError h]
    | error e =>
      rw [writeError_cmd_error hd] at h
      cases h
      exact issueCommand_error hd s
  | status | crc | h | mac => cases h; rfl
  | _ => cases h

/-- An instruction with an error changes ERR and ERR_STICKY alone, and a read answers 0, whatever the state. -/
theorem exec_of_errorCode (h : errorCode i = some c) (s : State) :
    exec i s = .next (State.err c { s with rdata := errorAnswer i s }) := by
  cases i with
  | regRd off =>
    obtain ⟨hr, rfl⟩ := errorCode_regRd.mp h
    exact execRegRd_none hr s
  | regWr off v =>
    cases hr : regAt off with
    | none =>
      rw [errorCode_regWr_none hr] at h
      cases h
      exact execRegWr_none hr v s
    | some r =>
      rw [errorCode_regWr_some hr] at h
      rw [exec_regWr, execRegWr_some hr]
      exact writeReg_of_writeError h s
  | _ => rw [errorCode_command rfl] at h; exact exec_of_commandError h s

/-! ### Every next state there is -/

/-- `Effect s i t`: `i` run in `s` leaves `t`, by raising or by one constructor for each instruction and each register
word that completes. The write of a command's word to CMD has none of its own: it is its command (`exec_effect`). -/
inductive Effect (s : State) : Instr → State → Prop where
  | raises {i : Instr} {c : ErrCode} (h : errorCode i = some c) :
      Effect s i (State.err c { s with rdata := errorAnswer i s })
  | nop : Effect s .nop s.completed
  | clear : Effect s .clear s.cleared
  | macAssemble : Effect s .macAssemble s.assembled.completed
  | macDigest : Effect s .macDigest s.digested.completed
  | macFold : Effect s .macFold s.folded.completed
  | macCompare : Effect s .macCompare s.compared.completed
  | macExpect : Effect s .macExpect s.expected.completed
  | macAuth : Effect s .macAuth s.expected.compared.completed
  | crcCompute (len : Nat) (hlen : len ≤ Config.fbBytes) :
      Effect s (.crcCompute len) { s with crc := crc16 len s, status := { s.status with err := .none } }
  | crcValidate (len i1 i2 : Nat) (hlen : len ≤ Config.fbBytes) (h1 : i1 < Config.fbBytes)
      (h2 : i2 < Config.fbBytes) :
      Effect s (.crcValidate len i1 i2) { s with
        crc := crc16 len s
        status := { s.status with frameOk := frameOkFlag (crc16 len s) s.fb[i1] s.fb[i2], err := .none } }
  | read (r : WindowReg) : Effect s (.regRd r.offset) { s with rdata := some (readReg r s) }
  | writePaddr (v : Word) : Effect s (.regWr 0x010 v) { s with paddr := v.extractLsb' 0 16 }
  | writeChal (v : Word) : Effect s (.regWr 0x014 v) { s with chal := #v[byteOf 0 v, byteOf 1 v, byteOf 2 v] }
  | writeSec (k : Fin 2) (v : Word) :
      Effect s (.regWr (0x018 + 4 * k) v) { s with sec := unpackWord s.sec k v (by omega) }
  | writeId (k : Fin 2) (v : Word) :
      Effect s (.regWr (0x020 + 4 * k) v) { s with id := unpackWord s.id k v (by omega) }
  | writeW (k : Fin 16) (v : Word) : Effect s (.regWr (0x040 + 4 * k) v) { s with w := s.w.set k v }
  | writeDmac (k : Fin 5) (v : Word) :
      Effect s (.regWr (0x0C0 + 4 * k) v) { s with dmac := unpackWord s.dmac k v (by omega) }
  | writePage (k : Fin 8) (v : Word) :
      Effect s (.regWr (0x100 + 4 * k) v) { s with page := unpackWord s.page k v (by omega) }
  | writeFb (k : Fin (Config.fbBytes / 4)) (v : Word) :
      Effect s (.regWr (0x200 + 4 * k) v) { s with fb := unpackWord s.fb k v (by omega) }

/-- A write of a register word other than CMD that raises nothing. -/
theorem writeReg_effect {r : WindowReg} {v : Word} (hr : r ≠ .cmd) (he : writeError r v = none)
    (h : writeReg r v s = .next t) : Effect s (.regWr r.offset v) t := by
  cases r with
  | cmd => exact absurd rfl hr
  | status | crc | h | mac => cases he
  | paddr => cases h; exact .writePaddr v
  | chal => cases h; exact .writeChal v
  | sec k => cases h; exact .writeSec k v
  | id k => cases h; exact .writeId k v
  | w k => cases h; exact .writeW k v
  | dmac k => cases h; exact .writeDmac k v
  | page k => cases h; exact .writePage k v
  | fb k => cases h; exact .writeFb k v

/-- What an instruction that raises nothing does, a write of CMD left out. -/
theorem exec_effect_of_no_error (he : errorCode i = none) (hi : ∀ v, i ≠ .regWr 0x000 v) (h : exec i s = .next t) :
    Effect s i t := by
  cases i with
  | nop => cases complete_next h; exact .nop
  | clear => cases h; exact .clear
  | macAssemble => cases complete_next h; exact .macAssemble
  | macDigest => cases complete_next h; exact .macDigest
  | macFold => cases complete_next h; exact .macFold
  | macCompare => cases complete_next h; exact .macCompare
  | macExpect => cases complete_next h; exact .macExpect
  | macAuth => cases complete_next h; exact .macAuth
  | crcCompute len =>
    have hlen : len ≤ Config.fbBytes := Nat.not_lt.mp fun hlen => by
      cases he.symm.trans (commandError_crcCompute.mpr ⟨hlen, rfl⟩)
    cases (execCrcCompute_inRange hlen s).symm.trans h
    exact .crcCompute len hlen
  | crcValidate len i1 i2 =>
    have hrange : ¬ (Config.fbBytes < len ∨ Config.fbBytes ≤ i1 ∨ Config.fbBytes ≤ i2) := fun hrange => by
      cases he.symm.trans (commandError_crcValidate.mpr ⟨hrange, rfl⟩)
    obtain ⟨hlen, h1, h2⟩ : len ≤ Config.fbBytes ∧ i1 < Config.fbBytes ∧ i2 < Config.fbBytes := by omega
    cases (execCrcValidate_inRange hlen h1 h2 s).symm.trans h
    exact .crcValidate len i1 i2 hlen h1 h2
  | regRd off =>
    cases hr : regAt off with
    | none => cases he.symm.trans (errorCode_regRd.mpr ⟨hr, rfl⟩)
    | some r =>
      cases offset_of_regAt hr
      cases (exec_regRd_offset r s).symm.trans h
      exact .read r
  | regWr off v =>
    cases hr : regAt off with
    | none => rw [errorCode_regWr_none hr] at he; cases he
    | some r =>
      rw [errorCode_regWr_some hr] at he
      cases offset_of_regAt hr
      rw [exec_regWr_offset] at h
      exact writeReg_effect (by rintro rfl; exact hi v rfl) he h

/-- Every next state of every instruction: its own effect, or its command's for a legal word written to CMD. -/
theorem exec_effect (h : exec i s = .next t) :
    Effect s i t ∨ ∃ v cmd, i = .regWr 0x000 v ∧ decodeCommand v = .ok cmd ∧ Effect s cmd t := by
  cases he : errorCode i with
  | some c =>
    cases (exec_of_errorCode he s).symm.trans h
    exact .inl (.raises he)
  | none =>
    by_cases hi : ∀ v, i ≠ .regWr 0x000 v
    · exact .inl (exec_effect_of_no_error he hi h)
    obtain ⟨v, rfl⟩ : ∃ v, i = .regWr 0x000 v := by simpa using hi
    cases hd : decodeCommand v with
    | error e => rw [errorCode_regWr_zero, writeError_cmd_error hd] at he; cases he
    | ok cmd =>
      rw [errorCode_regWr_cmd hd] at he
      rw [exec_regWr_cmd_ok hd] at h
      have hcmd : ∀ u, cmd ≠ .regWr 0x000 u := by
        rintro u rfl
        cases (decodeCommand_isCommand hd).1
      exact .inr ⟨v, cmd, rfl, hd, exec_effect_of_no_error he hcmd h⟩

/-- An instruction without an error sets ERR to 0 or leaves it. -/
theorem Effect.err_of_no_error (h : Effect s i t) (he : errorCode i = none) :
    t.status.err = .none ∨ t.status.err = s.status.err := by
  cases h with
  | raises hc => rw [he] at hc; cases hc
  | read | writePaddr | writeChal | writeSec | writeId | writeW | writeDmac | writePage | writeFb => exact .inr rfl
  | _ => exact .inl rfl

/-- What an instruction raises is its error code, in every state. -/
theorem raises_iff : Raises i s c ↔ errorCode i = some c := by
  constructor
  · rintro ⟨hc, t, ht, rfl⟩
    cases he : errorCode i with
    | some c =>
      cases (exec_of_errorCode he _).symm.trans ht
      rfl
    | none =>
      have herr : t.status.err = .none ∨ t.status.err = s.noErr.status.err := by
        rcases exec_effect ht with hE | ⟨v, cmd, rfl, hd, hE⟩
        · exact hE.err_of_no_error he
        · exact hE.err_of_no_error (errorCode_regWr_cmd hd ▸ he)
      exact absurd (herr.elim id id) hc
  · intro he
    exact ⟨errorCode_ne_none he, _, exec_of_errorCode he _, rfl⟩

/-! ### The writers of each register (10_state.md R41) -/

theorem Effect.frameOk_writers (h : Effect s i t) (hne : t.status.frameOk ≠ s.status.frameOk) :
    (∃ len i1 i2, i = .crcValidate len i1 i2) ∨ i = .clear := by
  cases h with
  | crcValidate len i1 i2 => exact .inl ⟨len, i1, i2, rfl⟩
  | clear => exact .inr rfl
  | _ => exact (hne rfl).elim

theorem Effect.macEq_writers (h : Effect s i t) (hne : t.status.macEq ≠ s.status.macEq) :
    i = .macCompare ∨ i = .macAuth ∨ i = .clear := by
  cases h with
  | macCompare => exact .inl rfl
  | macAuth => exact .inr (.inl rfl)
  | clear => exact .inr (.inr rfl)
  | _ => exact (hne rfl).elim

theorem Effect.err_writers (hi : ∀ v, i ≠ .regWr 0x000 v) (h : Effect s i t) (hne : t.status.err ≠ s.status.err) :
    i.isCommand = true ∨ Raises i s .bus := by
  cases h with
  | raises he =>
    cases hc : i.isCommand with
    | true => exact .inl rfl
    | false => exact .inr (raises_iff.mpr (errorCode_eq_bus hc hi he ▸ he))
  | read | writePaddr | writeChal | writeSec | writeId | writeW | writeDmac | writePage | writeFb =>
    exact (hne rfl).elim
  | _ => exact .inl rfl

theorem Effect.errSticky_writers (h : Effect s i t) (hne : t.status.errSticky ≠ s.status.errSticky) :
    (∃ c, Raises i s c) ∨ i = .clear := by
  cases h with
  | raises he => exact .inl ⟨_, raises_iff.mpr he⟩
  | clear => exact .inr rfl
  | _ => exact (hne rfl).elim

theorem Effect.crc_writers (h : Effect s i t) (hne : t.crc ≠ s.crc) :
    (∃ len, i = .crcCompute len) ∨ (∃ len i1 i2, i = .crcValidate len i1 i2) ∨ i = .clear := by
  cases h with
  | crcCompute len => exact .inl ⟨len, rfl⟩
  | crcValidate len i1 i2 => exact .inr (.inl ⟨len, i1, i2, rfl⟩)
  | clear => exact .inr (.inr rfl)
  | _ => exact (hne rfl).elim

theorem Effect.paddr_writers (h : Effect s i t) (hne : t.paddr ≠ s.paddr) :
    (∃ v, i = .regWr 0x010 v) ∨ i = .clear := by
  cases h with
  | writePaddr v => exact .inl ⟨v, rfl⟩
  | clear => exact .inr rfl
  | _ => exact (hne rfl).elim

theorem Effect.chal_writers (h : Effect s i t) (hne : t.chal ≠ s.chal) :
    (∃ v, i = .regWr 0x014 v) ∨ i = .clear := by
  cases h with
  | writeChal v => exact .inl ⟨v, rfl⟩
  | clear => exact .inr rfl
  | _ => exact (hne rfl).elim

theorem Effect.sec_writers (h : Effect s i t) (hne : t.sec ≠ s.sec) :
    (∃ k v, k < 2 ∧ i = .regWr (0x018 + 4 * k) v) ∨ i = .clear := by
  cases h with
  | writeSec k v => exact .inl ⟨k, v, k.isLt, rfl⟩
  | clear => exact .inr rfl
  | _ => exact (hne rfl).elim

theorem Effect.id_writers (h : Effect s i t) (hne : t.id ≠ s.id) :
    (∃ k v, k < 2 ∧ i = .regWr (0x020 + 4 * k) v) ∨ i = .clear := by
  cases h with
  | writeId k v => exact .inl ⟨k, v, k.isLt, rfl⟩
  | clear => exact .inr rfl
  | _ => exact (hne rfl).elim

theorem Effect.dmac_writers (h : Effect s i t) (hne : t.dmac ≠ s.dmac) :
    (∃ k v, k < 5 ∧ i = .regWr (0x0C0 + 4 * k) v) ∨ i = .clear := by
  cases h with
  | writeDmac k v => exact .inl ⟨k, v, k.isLt, rfl⟩
  | clear => exact .inr rfl
  | _ => exact (hne rfl).elim

theorem Effect.page_writers (h : Effect s i t) (hne : t.page ≠ s.page) :
    (∃ k v, k < 8 ∧ i = .regWr (0x100 + 4 * k) v) ∨ i = .clear := by
  cases h with
  | writePage k v => exact .inl ⟨k, v, k.isLt, rfl⟩
  | clear => exact .inr rfl
  | _ => exact (hne rfl).elim

theorem Effect.fb_writers (h : Effect s i t) (hne : t.fb ≠ s.fb) :
    (∃ k v, k < Config.fbBytes / 4 ∧ i = .regWr (0x200 + 4 * k) v) ∨ i = .clear := by
  cases h with
  | writeFb k v => exact .inl ⟨k, v, k.isLt, rfl⟩
  | clear => exact .inr rfl
  | _ => exact (hne rfl).elim

theorem Effect.w_writers (h : Effect s i t) (hne : t.w ≠ s.w) :
    (∃ k v, k < 16 ∧ i = .regWr (0x040 + 4 * k) v) ∨
      i = .macAssemble ∨ i = .macExpect ∨ i = .macAuth ∨ i = .clear := by
  cases h with
  | writeW k v => exact .inl ⟨k, v, k.isLt, rfl⟩
  | macAssemble | macExpect | macAuth | clear => simp only [true_or, or_true]
  | _ => exact (hne rfl).elim

theorem Effect.h_writers (h : Effect s i t) (hne : t.h ≠ s.h) :
    i = .macDigest ∨ i = .macExpect ∨ i = .macAuth ∨ i = .clear := by
  cases h with
  | macDigest | macExpect | macAuth | clear => simp only [true_or, or_true]
  | _ => exact (hne rfl).elim

theorem Effect.mac_writers (h : Effect s i t) (hne : t.mac ≠ s.mac) :
    i = .macFold ∨ i = .macExpect ∨ i = .macAuth ∨ i = .clear := by
  cases h with
  | macFold | macExpect | macAuth | clear => simp only [true_or, or_true]
  | _ => exact (hne rfl).elim

/-- A write of CMD is a command, or raises ILLEGAL_CMD (10_state.md R23). -/
theorem exec_regWr_cmd_cases (v : Word) (s : State) :
    (∃ cmd, cmd.isCommand = true ∧ exec (.regWr 0x000 v) s = exec cmd s) ∨
      exec (.regWr 0x000 v) s = .next (s.err .illegalCmd) := by
  cases hd : decodeCommand v with
  | ok cmd => exact .inl ⟨cmd, (decodeCommand_isCommand hd).1, exec_regWr_cmd_ok hd s⟩
  | error e => exact .inr (exec_regWr_cmd_error hd s)

theorem toWord_cleared : Status.cleared.toWord = 0 := by decide

/-- Settles O16: every next state is one of `Effect`'s, and each register is changed by the constructors of its own
row alone. -/
theorem writersOfEachRegister : Obligations.WritersOfEachRegister := by
  refine ⟨exec_regWr_cmd_cases, ?_, ?_, ?_⟩
  · intro s t h
    cases h
    exact ⟨toWord_cleared, rfl, rfl, rfl, rfl, rfl, rfl, rfl, rfl, rfl, rfl, rfl⟩
  · intro s t h
    cases complete_next h
    rfl
  · intro i s t hi h
    have hE : Effect s i t := (exec_effect h).resolve_right fun ⟨v, _, hv, _⟩ => hi v hv
    exact ⟨hE.frameOk_writers, hE.macEq_writers, hE.err_writers hi, hE.errSticky_writers, hE.crc_writers,
      hE.paddr_writers, hE.chal_writers, hE.sec_writers, hE.id_writers, hE.dmac_writers, hE.page_writers,
      hE.fb_writers, hE.w_writers, hE.h_writers, hE.mac_writers⟩

/-! ### ERR_STICKY (10_state.md R28) -/

/-- CLEAR has one word (30_encoding.md R74). -/
theorem decodeCommand_eq_clear {v : Word} (h : decodeCommand v = .ok .clear) : v = 0x00000001 := by
  have hword : opField v = 0x01#8 ∧ fieldA v = 0 ∧ fieldB v = 0 ∧ fieldC v = 0 := by
    rw [decodeCommand_eq] at h
    split_ifs at h
    all_goals simp only [withoutOperands_eq_ok, withOperandA_eq_ok, Except.ok.injEq, reduceCtorEq, and_false] at h
    next hop => exact ⟨hop, h.1⟩
  obtain ⟨hop, hA, hB, hC⟩ := hword
  exact word_ext_fields hop hA hB hC

/-- A set ERR_STICKY stays set under everything but CLEAR. -/
theorem Effect.errSticky_kept (h : Effect s i t) (hi : i ≠ .clear) (hs : s.status.errSticky = true) :
    t.status.errSticky = true := by
  cases h with
  | raises => rfl
  | clear => exact absurd rfl hi
  | _ => exact hs

/-- Settles O11: a raise sets ERR_STICKY by `exec_of_errorCode`, and among the effects CLEAR's alone resets it. -/
theorem stickyClearedOnlyByClearOrReset : Obligations.StickyClearedOnlyByClearOrReset := by
  refine ⟨?_, fun s => ⟨_, rfl, rfl⟩, fun s rest h => ⟨_, step_hardReset h, rfl⟩, ?_⟩
  · intro i s t c hr h
    cases (exec_of_errorCode (raises_iff.mp hr) s).symm.trans h
    rfl
  · intro i s t hi hw h hs
    rcases exec_effect h with hE | ⟨v, cmd, rfl, hd, hE⟩
    · exact hE.errSticky_kept hi hs
    · refine hE.errSticky_kept ?_ hs
      rintro rfl
      exact hw (by rw [decodeCommand_eq_clear hd])

end Sys2Proof.Machine
end

section
/-! PROOFS, the window's bad offsets (20_memory.md R53, R55). The window map names no register there
(`regAt_eq_none`), and where it names none a read answers 0 and both accesses raise BUS. -/

namespace Sys2Proof.Machine

/-- The read and the write at an offset where the window map names no register. -/
theorem exec_access_of_regAt_none {off : Nat} (h : regAt off = none) (v : Word) (s : State) :
    exec (.regRd off) s = .next (State.err .bus { s with rdata := some 0x00000000 }) ∧
    exec (.regWr off v) s = .next (s.err .bus) :=
  ⟨execRegRd_none h s, execRegWr_none h v s⟩

/-- Settles O20: the ranges written out are `reservedOffset`'s, so the map names no register at `off`. -/
theorem reservedOffsetsAreBusErrors : Obligations.ReservedOffsetsAreBusErrors := by
  intro off v s hoff
  have hreserved : reservedOffset off = true := by
    rw [reservedOffset, decide_eq_true_eq]
    omega
  exact exec_access_of_regAt_none (regAt_eq_none.mpr (.inr hreserved)) v s

/-- Settles O21: the map names no register at a misaligned offset. -/
theorem misalignedAccessesAreBusErrors : Obligations.MisalignedAccessesAreBusErrors :=
  fun _ v s hoff => exec_access_of_regAt_none (regAt_eq_none.mpr (.inl hoff)) v s

end Sys2Proof.Machine
end

section
/-! PROOFS, the decoding of command words (30_encoding.md R74). `commandOf` is the command a word's opcode names, its
operands the word's fields; the decoder answers it, or the error of the rule's first condition that holds. -/

namespace Sys2Proof

variable {v : Word}

/-- The opcode map's opcodes (30_encoding.md R71). -/
def assignedOpcodes : List Byte :=
  [0x00#8, 0x01#8, 0x10#8, 0x11#8, 0x12#8, 0x13#8, 0x14#8, 0x15#8, 0x20#8, 0x21#8]

/-- The command of the word's opcode with `len` = A, `i1` = B, `i2` = C (30_encoding.md R71, R74); of no meaning for a
word whose opcode is not assigned. -/
def commandOf (v : Word) : Instr :=
  if opField v = 0x00#8 then .nop else if opField v = 0x01#8 then .clear
  else if opField v = 0x10#8 then .macAssemble else if opField v = 0x11#8 then .macDigest
  else if opField v = 0x12#8 then .macFold else if opField v = 0x13#8 then .macCompare
  else if opField v = 0x14#8 then .macExpect else if opField v = 0x15#8 then .macAuth
  else if opField v = 0x20#8 then .crcCompute (fieldA v).toNat
  else .crcValidate (fieldA v).toNat (fieldB v).toNat (fieldC v).toNat

theorem withoutOperands_eq_error {i : Instr} (h : fieldA v ≠ 0 ∨ fieldB v ≠ 0 ∨ fieldC v ≠ 0) :
    withoutOperands v i = .error .reservedField :=
  if_neg fun ⟨hA, hB, hC⟩ => h.elim (· hA) (·.elim (· hB) (· hC))

theorem withOperandA_eq_error {i : Nat → Instr} (h : fieldB v ≠ 0 ∨ fieldC v ≠ 0) :
    withOperandA v i = .error .reservedField :=
  if_neg fun ⟨hB, hC⟩ => h.elim (· hB) (· hC)

theorem decodeCommand_unassigned (h : opField v ∉ assignedOpcodes) :
    decodeCommand v = .error .unassignedOpcode := by
  simp only [assignedOpcodes, List.mem_cons, List.not_mem_nil, or_false, not_or] at h
  simp only [decodeCommand_eq, h, if_false]

theorem decodeCommand_crcCompute (h : opField v = 0x20#8) :
    decodeCommand v = withOperandA v .crcCompute := by
  rw [decodeCommand_eq, h]; rfl

theorem decodeCommand_crcValidate (h : opField v = 0x21#8) :
    decodeCommand v = .ok (.crcValidate (fieldA v).toNat (fieldB v).toNat (fieldC v).toNat) := by
  rw [decodeCommand_eq, h]; rfl

/-- Away from the CRC unit's two opcodes all three fields are reserved. -/
theorem decodeCommand_withoutOperands (hop : opField v ∈ assignedOpcodes) (h : opField v ∉ [0x20#8, 0x21#8]) :
    decodeCommand v = withoutOperands v (commandOf v) := by
  simp only [List.mem_cons, List.not_mem_nil, or_false, not_or] at h
  simp only [assignedOpcodes, List.mem_cons, List.not_mem_nil, h, or_false] at hop
  rw [decodeCommand_eq, commandOf]
  rcases hop with hop | hop | hop | hop | hop | hop | hop | hop <;> rw [hop] <;> rfl

/-- A word with an assigned opcode and no reserved field set decodes to its command. -/
theorem decodeCommand_eq_commandOf (hop : opField v ∈ assignedOpcodes)
    (hBC : opField v = 0x20#8 → fieldB v = 0 ∧ fieldC v = 0)
    (hABC : opField v ∉ [0x20#8, 0x21#8] → fieldA v = 0 ∧ fieldB v = 0 ∧ fieldC v = 0) :
    decodeCommand v = .ok (commandOf v) := by
  by_cases hcompute : opField v = 0x20#8
  · rw [decodeCommand_crcCompute hcompute, withOperandA_eq_ok, commandOf, hcompute]
    exact ⟨hBC hcompute, rfl⟩
  by_cases hvalidate : opField v = 0x21#8
  · rw [decodeCommand_crcValidate hvalidate, commandOf, hvalidate]
    rfl
  have hnone : opField v ∉ [0x20#8, 0x21#8] := by simp [hcompute, hvalidate]
  rw [decodeCommand_withoutOperands hop hnone, withoutOperands_eq_ok]
  exact ⟨hABC hnone, rfl⟩

end Sys2Proof

namespace Sys2Proof.Machine

/-- Settles O3: in each of the rule's cases the decoder's answer is known, and a write of CMD raises ILLEGAL_CMD for
an error and is the command otherwise. -/
theorem commandWordsDecodeInRuleOrder : Obligations.CommandWordsDecodeInRuleOrder := by
  intro v s op a b c
  refine iteInduction (motive := fun p => p) (fun hop => ?unassigned) fun hop => ?_
  case unassigned => exact exec_regWr_cmd_error (decodeCommand_unassigned hop) s
  have hop : op ∈ assignedOpcodes := not_not.mp hop
  refine iteInduction (motive := fun p => p) (fun ⟨hcompute, hreserved⟩ => ?compute) fun hBC => ?_
  case compute =>
    exact exec_regWr_cmd_error ((decodeCommand_crcCompute hcompute).trans (withOperandA_eq_error hreserved)) s
  refine iteInduction (motive := fun p => p) (fun ⟨hnone, hreserved⟩ => ?reserved) fun hABC => ?legal
  case reserved =>
    exact exec_regWr_cmd_error ((decodeCommand_withoutOperands hop hnone).trans (withoutOperands_eq_error hreserved)) s
  case legal =>
    simp only [not_and, not_or, ne_eq, not_not] at hBC hABC
    exact exec_regWr_cmd_ok (decodeCommand_eq_commandOf hop hBC hABC) s

end Sys2Proof.Machine
end

section
/-! PROOFS, the host's accesses (40_host_access.md R90, R91, R92). Each register word is read and written at its own
offset (`exec_regRd_offset`, `exec_regWr_offset`); what is left is the form of the word a read answers and of the
register a write leaves. -/

namespace Sys2Proof.Machine

/-- A 16-bit register reads zero-extended. -/
theorem setWidth_eq_zero_append (x : Half) : x.setWidth 32 = 0#16 ++ x :=
  BitVec.setWidth_eq_append (by decide)

/-- Settles O17: a bad offset names no register, and every other offset is that of a register word, whose `readReg` is
the word written out. -/
theorem busReadReturnsTheRegister : Obligations.BusReadReturnsTheRegister := by
  intro s
  refine ⟨fun off h => (exec_access_of_regAt_none (regAt_eq_none.mpr h) 0 s).1, ?cmd, ?status, ?crc, ?paddr, ?chal,
    fun k h => ?sec, fun k h => ?id, fun i h => ?w, fun i h => ?h, fun k h => ?mac, fun k h => ?dmac,
    fun k h => ?page, fun k h => ?fb⟩
  case cmd => exact exec_regRd_offset .cmd s
  case status => exact exec_regRd_offset .status s
  case crc => rw [← setWidth_eq_zero_append]; exact exec_regRd_offset .crc s
  case paddr => rw [← setWidth_eq_zero_append]; exact exec_regRd_offset .paddr s
  case chal => exact exec_regRd_offset .chal s
  case sec => exact exec_regRd_offset (.sec ⟨k, h⟩) s
  case id => exact exec_regRd_offset (.id ⟨k, h⟩) s
  case w => exact exec_regRd_offset (.w ⟨i, h⟩) s
  case h => exact exec_regRd_offset (.h ⟨i, h⟩) s
  case mac => exact exec_regRd_offset (.mac ⟨k, h⟩) s
  case dmac => exact exec_regRd_offset (.dmac ⟨k, h⟩) s
  case page => exact exec_regRd_offset (.page ⟨k, h⟩) s
  case fb => exact exec_regRd_offset (.fb ⟨k, by omega⟩) s

/-- The register words inside the read-only ranges are those a write of raises BUS (60_exceptions.md R176). -/
theorem writeError_of_readOnlyOffset {r : WindowReg} (h : readOnlyOffset r.offset = true) (v : Word) :
    writeError r v = some .bus := by
  rw [readOnlyOffset, decide_eq_true_eq] at h
  cases r with
  | status | crc | h | mac => rfl
  | _ => exfalso; simp only [WindowReg.offset] at h; omega

theorem exec_regWr_of_readOnlyOffset {off : Nat} (h : readOnlyOffset off = true) (v : Word) (s : State) :
    exec (.regWr off v) s = .next (s.err .bus) := by
  cases hr : regAt off with
  | none => exact execRegWr_none hr v s
  | some r =>
    have hbus : writeError r v = some .bus := writeError_of_readOnlyOffset (by rwa [offset_of_regAt hr]) v
    rw [exec_regWr, execRegWr_some hr, writeReg_of_writeError hbus]

/-- A write of a word of W, by elements. -/
theorem set_eq_ofFn {n : Nat} (w : Vector Word n) (i : Nat) (v : Word) (h : i < n) :
    w.set i v = Vector.ofFn fun j => if j.val = i then v else w[j] := by
  ext j hj
  rw [Vector.getElem_set, Vector.getElem_ofFn]
  simp only [eq_comm (a := i), Fin.getElem_fin]

/-- Settles O18: a bad offset raises BUS, a write of CMD is what the decoder answers, and at the offset of a data
register's word `writeReg` sets the elements of that word (`unpackWord_eq_ofFn`, `set_eq_ofFn`). -/
theorem busWriteStoresTheWord : Obligations.BusWriteStoresTheWord := by
  intro s v
  refine ⟨fun off h => ?bad, fun i h => exec_regWr_cmd_ok h s, fun x h => exec_regWr_cmd_error h s,
    exec_regWr_offset .paddr v s, exec_regWr_offset .chal v s, fun k h => ?sec, fun k h => ?id, fun i h => ?w,
    fun k h => ?dmac, fun k h => ?page, fun k h => ?fb⟩
  case bad =>
    rcases or_assoc.mpr h with hnone | hreadOnly
    · exact (exec_access_of_regAt_none (regAt_eq_none.mpr hnone) v s).2
    · exact exec_regWr_of_readOnlyOffset hreadOnly v s
  case sec => exact (exec_regWr_offset (.sec ⟨k, h⟩) v s).trans (by rw [writeReg, unpackWord_eq_ofFn])
  case id => exact (exec_regWr_offset (.id ⟨k, h⟩) v s).trans (by rw [writeReg, unpackWord_eq_ofFn])
  case w => exact (exec_regWr_offset (.w ⟨i, h⟩) v s).trans (by rw [writeReg, set_eq_ofFn])
  case dmac => exact (exec_regWr_offset (.dmac ⟨k, h⟩) v s).trans (by rw [writeReg, unpackWord_eq_ofFn])
  case page => exact (exec_regWr_offset (.page ⟨k, h⟩) v s).trans (by rw [writeReg, unpackWord_eq_ofFn])
  case fb => exact (exec_regWr_offset (.fb ⟨k, by omega⟩) v s).trans (by rw [writeReg, unpackWord_eq_ofFn])

/-- Settles O25: the write is that of word `j / 4` of FB, and `unpackWord_get` gives every byte after it. -/
theorem frameByteIsWrittenByItsWord : Obligations.FrameByteIsWrittenByItsWord := by
  intro j v s hj
  have hlast : 4 * (j / 4) + 3 < Config.fbBytes := by
    have hfb : Config.fbBytes = 64 := rfl
    omega
  exact ⟨_, exec_regWr_offset (.fb ⟨j / 4, by omega⟩) v s, unpackWord_get s.fb (j / 4) v hlast⟩

end Sys2Proof.Machine
end

section
/-! PROOFS, the range check of the CRC unit (41_crc.md R104). The laws of `execCrcCompute` and `execCrcValidate` on both
sides of the check hold for any FB_BYTES; R104's numbers are theirs at FB_BYTES = 64. -/

namespace Sys2Proof.Machine

/-- Settles O28: with FB_BYTES = 64, R104's operands are those the range check refuses, and the others pass it. -/
theorem crcRangeCheck : Obligations.CrcRangeCheck := by
  intro s
  have hfb : Config.fbBytes = 64 := rfl
  refine ⟨fun len hlen _ => ?computeRaises, fun len i1 i2 _ _ _ hrange => ?validateRaises,
    fun len hlen => ?computeCompletes, fun len i1 i2 hlen h1 h2 => ?validateCompletes⟩
  case computeRaises => exact execCrcCompute_outOfRange (by omega) s
  case validateRaises => exact execCrcValidate_outOfRange (by omega) s
  case computeCompletes => exact ⟨_, execCrcCompute_inRange (by omega) s, rfl⟩
  case validateCompletes => exact ⟨_, execCrcValidate_inRange (by omega) (by omega) (by omega) s, rfl⟩

end Sys2Proof.Machine
end

section
/-! PROOFS, the digest and the fold (42_mac_digest.md R123, R126). A command without operands has one word
(`issuedBy_commandOf`); the fold's bytes are `foldMac_get`'s, in lanes of four; what a command or a write of W leaves is
read off from its whole next state. -/

namespace Sys2Proof.Machine

/-- The word whose operand fields are zero issues the command its opcode names, if that command has no operands
(30_encoding.md R74). -/
theorem issuedBy_commandOf {op : Word} (hop : opField op ∈ assignedOpcodes) (hnone : opField op ∉ [0x20#8, 0x21#8])
    (hfields : fieldA op = 0 ∧ fieldB op = 0 ∧ fieldC op = 0) : IssuedBy op (commandOf op) := by
  refine ⟨exec_regWr_cmd_ok ?word, fun v s hv hne => exec_regWr_cmd_error (e := .reservedField) ?other s⟩
  case word => rw [decodeCommand_withoutOperands hop hnone, withoutOperands_eq_ok]; exact ⟨hfields, rfl⟩
  case other =>
    have hv : opField v = opField op := hv
    obtain ⟨hA, hB, hC⟩ := hfields
    have hreserved : fieldA v ≠ 0 ∨ fieldB v ≠ 0 ∨ fieldC v ≠ 0 := by
      by_contra! hzero
      obtain ⟨hvA, hvB, hvC⟩ := hzero
      exact hne (word_ext_fields hv (hvA.trans hA.symm) (hvB.trans hB.symm) (hvC.trans hC.symm))
    rw [decodeCommand_withoutOperands (hv ▸ hop) (hv ▸ hnone), withoutOperands_eq_error hreserved]

/-- Lane `j` of word `k` of the fold is byte `j` of the digest's word `4 - k` (42_mac_digest.md R123). -/
theorem foldMac_get_lane (h : Vector Word 5) {k j : Nat} (hk : k < 5) (hj : j < 4) :
    (foldMac h)[4 * k + j] = byteOf j h[4 - k] := by
  have hword : (4 * k + j) / 4 = k := by omega
  have hlane : (4 * k + j) % 4 = j := by omega
  simp only [foldMac_get h (4 * k + j) (by omega), hword, hlane]

theorem exec_macFold (s : State) :
    exec .macFold s = .next { s with mac := foldMac s.h, status := { s.status with err := .none } } := rfl

/-- Settles O35: the MAC is `foldMac` of H, lane by lane (`foldMac_get_lane`). -/
theorem foldEmitsTheWordsInReverse : Obligations.FoldEmitsTheWordsInReverse :=
  ⟨issuedBy_commandOf (op := 0x00000012) (by decide) (by decide) (by decide),
    fun s => ⟨foldMac s.h, fun _ _ hk hj => foldMac_get_lane s.h hk hj, exec_macFold s⟩⟩

/-- Settles O37: a write of W sets a word of W, and the two commands end in `complete()` after a body whose frame
leaves the results. -/
theorem digestAndMacAreNotViews : Obligations.DigestAndMacAreNotViews := by
  refine ⟨fun i v s hi => ?writeW, fun s => ?assemble, fun s => ?digest⟩
  case writeW => exact ⟨_, exec_regWr_offset (.w ⟨i, hi⟩) v s, rfl, rfl⟩
  case assemble => exact ⟨s.assembled.completed, rfl, s.assembled_h, s.assembled_mac⟩
  case digest => exact ⟨s.digested.completed, rfl, s.digested_mac⟩

end Sys2Proof.Machine
end

section
/-! PROOFS, block assembly and verification (43_mac_verify.md R141, R144). The three assembling commands leave
`macBlock s` in W (`exec_assembling_w`), so the constants of the block are facts about `macBlock`; the bytes and bits
inside its words are read by `byteOf_le32`. MAC_EQ is `macEqFlag`, equality byte by byte. -/

namespace Sys2Proof.Machine

/-- The page type byte is the page class on top of PADDR[7:5] (43_mac_verify.md R140): bits 2:0 are inside the mask
`0b111` and below the class, bits 7:3 above the mask. -/
theorem pageType_eq_append (paddr : Half) : pageType paddr = 0b01000#5 ++ paddr.extractLsb' 5 3 := by
  ext i hi
  rw [pageType, BitVec.getElem_setWidth, BitVec.getElem_append, BitVec.getLsbD_or, BitVec.getLsbD_and,
    BitVec.getLsbD_ushiftRight]
  split
  case isTrue hpaddr => interval_cases i <;> simp
  case isFalse hclass => interval_cases i <;> simp

theorem pageType_class (paddr : Half) : (pageType paddr).extractLsb' 3 5 = 0b01000#5 := by
  rw [pageType_eq_append]
  exact BitVec.extractLsb'_append_eq_left

/-- The five top bits of a word are those of its top byte. -/
theorem extractLsb'_be32_top (b0 b1 b2 b3 : Byte) : (be32 b0 b1 b2 b3).extractLsb' 27 5 = b0.extractLsb' 3 5 := by
  have htop (x : Word) : x.extractLsb' 27 5 = (byteOf 3 x).extractLsb' 3 5 := by
    ext i hi
    rw [BitVec.getElem_extractLsb', BitVec.getElem_extractLsb', byteOf_getLsbD, decide_eq_true (by omega),
      Bool.true_and, ← Nat.add_assoc]
  rw [htop, be32_eq_le32, byteOf_three_le32]

/-- Every assembling command leaves the MAC block of the state it ran in: no later part of it writes W. -/
theorem exec_assembling_w {i : Instr} (hi : i = .macAssemble ∨ i = .macExpect ∨ i = .macAuth) (s : State) :
    ∃ t, exec i s = .next t ∧ t.w = macBlock s := by
  rcases hi with rfl | rfl | rfl
  · exact ⟨s.assembled.completed, rfl, s.assembled_w⟩
  · exact ⟨s.expected.completed, rfl, s.assembled_w⟩
  · exact ⟨s.expected.compared.completed, rfl, s.assembled_w⟩

/-- Settles O40: W is `macBlock s`, whose constants stand in its words 9, 14 and 15, in the class bits of the page type
byte on top of word 10, and in the low byte of word 13. -/
theorem macBlockConstantsAreFixed : Obligations.MacBlockConstantsAreFixed := by
  intro i s hi
  obtain ⟨t, ht, hw⟩ := exec_assembling_w hi s
  refine ⟨t, ht, ?_⟩
  rw [hw]
  exact ⟨rfl, (extractLsb'_be32_top ..).trans (pageType_class s.paddr), byteOf_zero_le32 .., rfl, rfl⟩

theorem macEqFlag_iff (mac dmac : Vector Byte 20) :
    macEqFlag mac dmac = true ↔ ∀ j, ∀ h : j < 20, mac[j] = dmac[j] := by
  rw [macEqFlag, decide_eq_true_eq, Vector.toList_inj, Vector.ext_iff]

theorem exec_macCompare (s : State) :
    exec .macCompare s = .next { s with status := { s.status with macEq := macEqFlag s.mac s.dmac, err := .none } } :=
  complete_eq s.compared

/-- Settles O41: the flag is `macEqFlag` of MAC and DMAC, which is their equality byte by byte. -/
theorem compareIsByteExact : Obligations.CompareIsByteExact :=
  ⟨issuedBy_commandOf (op := 0x00000013) (by decide) (by decide) (by decide),
    fun s => ⟨macEqFlag s.mac s.dmac, macEqFlag_iff s.mac s.dmac, exec_macCompare s⟩⟩

end Sys2Proof.Machine
end

section
/-! PROOFS, the control commands (44_control.md R160, R161). Both have one word (`issuedBy_commandOf`); NOP is
`complete()` alone, and CLEAR's next state is `State.cleared`, whose registers the laws of State name. -/

namespace Sys2Proof.Machine

theorem exec_nop (s : State) : exec .nop s = .next s.noErr := complete_eq s

theorem exec_clear (s : State) : exec .clear s = .next s.cleared := rfl

/-- Settles O1: the word with all fields zero issues NOP, which is `complete()` and nothing else (`exec_nop`). -/
theorem nopOnlyClearsErr : Obligations.NopOnlyClearsErr :=
  ⟨issuedBy_commandOf (op := 0x00000000) (by decide) (by decide) (by decide), exec_nop⟩

/-- Settles O2: CLEAR answers `s.cleared`, whose STATUS word is 0 (`toWord_cleared`) and whose packed registers repeat
the element 0. -/
theorem clearZeroesEveryRegister : Obligations.ClearZeroesEveryRegister := by
  refine ⟨issuedBy_commandOf (op := 0x00000001) (by decide) (by decide) (by decide), fun s =>
    ⟨s.cleared, exec_clear s, toWord_cleared, s.cleared_crc, s.cleared_paddr, ?chal, ?secId, ?w, ?h, ?macDmac, ?page,
      ?fb, s.cleared_rdata, s.cleared_pending, s.cleared_resets⟩⟩
  case chal | w | h | page | fb => exact fun _ hj => Vector.getElem_replicate hj
  case secId | macDmac => exact fun _ hj => ⟨Vector.getElem_replicate hj, Vector.getElem_replicate hj⟩

end Sys2Proof.Machine
end

section
/-! PROOFS, the exceptions (60_exceptions.md R170 to R176). An instruction raises its `errorCode` and nothing else
(`raises_iff`), so the causes of the errors are facts about that function, a raise is `exec_of_errorCode`, and a
command that raises nothing has one of `Effect`'s completing forms. -/

namespace Sys2Proof.Machine

variable {s t : State} {i : Instr} {c : ErrCode}

/-! ### Completing and raising (60_exceptions.md R171, R172) -/

theorem errorCode_eq_none_iff : errorCode i = none ↔ ∀ c, ¬ Raises i s c := by
  simp only [Option.eq_none_iff_forall_ne_some, ne_eq, raises_iff]

/-- Every command but CLEAR ends in `complete()`, unless it raises. -/
theorem Effect.command_completes (h : Effect s i t) (hi : i.isCommand = true) (he : errorCode i = none) :
    t.status.err = .none ∧ (i ≠ .clear → t.status.errSticky = s.status.errSticky) := by
  cases h with
  | raises hc => cases he.symm.trans hc
  | clear => exact ⟨rfl, fun hne => absurd rfl hne⟩
  | read | writePaddr | writeChal | writeSec | writeId | writeW | writeDmac | writePage | writeFb => cases hi
  | _ => exact ⟨rfl, fun _ => rfl⟩

/-- Settles O12: a command has no access's effect, and each effect left to it completes (`command_completes`). -/
theorem completingClearsErrAndKeepsSticky : Obligations.CompletingClearsErrAndKeepsSticky := by
  intro i s t hi hnone h
  have he : errorCode i = none := errorCode_eq_none_iff.mpr hnone
  have hE : Effect s i t := exec_effect_of_no_error he (by rintro v rfl; cases hi) h
  exact hE.command_completes hi he

/-- Settles O14: what an instruction raises is its error code, and `exec_of_errorCode` is the state that leaves; the
`rdata` of the statement is `errorAnswer`. -/
theorem raisingChangesOnlyErrAndSticky : Obligations.RaisingChangesOnlyErrAndSticky := by
  intro i s c h
  exact exec_of_errorCode (raises_iff.mp h) s

/-! ### The causes of the errors (60_exceptions.md R173 to R176) -/

/-- Away from CMD, the register words a write of raises are those inside the read-only ranges. -/
theorem writeError_eq_some_iff {r : WindowReg} {v : Word} (hr : r ≠ .cmd) :
    writeError r v = some c ↔ c = .bus ∧ readOnlyOffset r.offset = true := by
  constructor
  · intro h
    refine ⟨writeError_eq_bus hr h, ?_⟩
    rw [readOnlyOffset, decide_eq_true_eq]
    cases r with
    | cmd => exact absurd rfl hr
    | status | crc | h | mac => simp only [WindowReg.offset]; omega
    | _ => cases h
  · rintro ⟨rfl, h⟩
    exact writeError_of_readOnlyOffset h v

theorem errorCode_regWr_of_ne_zero {off : Nat} (hoff : off ≠ 0x000) (v : Word) :
    errorCode (.regWr off v) = some c ↔
      c = .bus ∧ (off % 4 ≠ 0 ∨ reservedOffset off = true ∨ readOnlyOffset off = true) := by
  rw [← or_assoc, ← regAt_eq_none]
  cases hr : regAt off with
  | none =>
    rw [errorCode_regWr_none hr, Option.some.injEq, eq_comm]
    exact (and_iff_left (.inl rfl)).symm
  | some r =>
    have hcmd : r ≠ .cmd := by
      rintro rfl
      exact hoff (offset_of_regAt hr).symm
    rw [errorCode_regWr_some hr, writeError_eq_some_iff hcmd, offset_of_regAt hr]
    simp

/-- Settles O15: `raises_iff` turns each clause into the law of `errorCode` for its instruction. -/
theorem causesOfEveryError : Obligations.CausesOfEveryError := by
  intro i s c
  cases i with
  | crcCompute len => exact raises_iff.trans (commandError_crcCompute.trans and_comm)
  | crcValidate len i1 i2 => exact raises_iff.trans (commandError_crcValidate.trans and_comm)
  | regRd off => exact raises_iff.trans (errorCode_regRd.trans (by rw [regAt_eq_none, and_comm]))
  | regWr off v =>
    refine iteInduction (motive := fun p => p) (fun hoff => ?cmd) fun hoff => ?elsewhere
    case cmd =>
      subst hoff
      split
      next e hd => rw [raises_iff, errorCode_regWr_zero, writeError_cmd_error hd, Option.some.injEq, eq_comm]
      next cmd hd => rw [raises_iff, raises_iff, errorCode_regWr_cmd hd]
    case elsewhere => exact raises_iff.trans (errorCode_regWr_of_ne_zero hoff v)
  | _ => exact fun h => nomatch raises_iff.mp h

/-- A write of CMD raises ILLEGAL_CMD or its command's RANGE. -/
theorem errorCode_regWr_zero_ne_bus (v : Word) : errorCode (.regWr 0x000 v) ≠ some .bus := by
  intro h
  cases hd : decodeCommand v with
  | ok cmd =>
    rw [errorCode_regWr_zero, writeError_cmd_ok hd] at h
    cases commandError_eq_range h
  | error e =>
    rw [errorCode_regWr_zero, writeError_cmd_error hd] at h
    cases h

/-- Settles O19: `writeReg` raises BUS for each read-only register word, CMD's errors are others
(`errorCode_regWr_zero_ne_bus`), and CMD reads as the register word 0. -/
theorem readOnlyRegistersRefuseWrites : Obligations.ReadOnlyRegistersRefuseWrites := by
  refine ⟨fun s v => ⟨?status, ?crc, fun i hi => ?h, fun k hk => ?mac⟩,
    fun s v hr => errorCode_regWr_zero_ne_bus v (raises_iff.mp hr), exec_regRd_offset .cmd⟩
  case status => exact exec_regWr_offset .status v s
  case crc => exact exec_regWr_offset .crc v s
  case h => exact exec_regWr_offset (.h ⟨i, hi⟩) v s
  case mac => exact exec_regWr_offset (.mac ⟨k, hk⟩) v s

end Sys2Proof.Machine
end

section
/-! PROOFS, the encoder and the decoder (30_encoding.md R70 to R80). A word or a header is made of its fields
(`commandWord_fields`, `busHeader_fields`) and its fields are the operands it was made of, so the encoder and the
decoder are inverse to each other, opcode by opcode. -/

namespace Sys2Proof

/-! ### Decoding an encoding -/

theorem toNat_ofNat_of_fitsField {n : Nat} (h : fitsField n = true) : (BitVec.ofNat 8 n).toNat = n :=
  Nat.mod_eq_of_lt (of_decide_eq_true h)

theorem decodeCommand_commandWord_crcCompute {len : Nat} (h : fitsField len = true) :
    decodeCommand (commandWord 0x20 len 0 0) = .ok (.crcCompute len) := by
  rw [decodeCommand_crcCompute (opField_commandWord ..), withOperandA_eq_ok, fieldA_commandWord,
    toNat_ofNat_of_fitsField h]
  exact ⟨⟨fieldB_commandWord .., fieldC_commandWord ..⟩, rfl⟩

theorem decodeCommand_commandWord_crcValidate {len i1 i2 : Nat} (h : fitsField len = true) (h1 : fitsField i1 = true)
    (h2 : fitsField i2 = true) : decodeCommand (commandWord 0x21 len i1 i2) = .ok (.crcValidate len i1 i2) := by
  rw [decodeCommand_crcValidate (opField_commandWord ..), fieldA_commandWord, fieldB_commandWord, fieldC_commandWord,
    toNat_ofNat_of_fitsField h, toNat_ofNat_of_fitsField h1, toNat_ofNat_of_fitsField h2]

theorem mod_of_fitsWindow {off : Nat} (h : fitsWindow off = true) : off % 4096 = off :=
  Nat.mod_eq_of_lt (of_decide_eq_true h)

/-- Settles O4: a command without operands is one closed word; the fields of the others' words, and of a header, hold
the operands. -/
theorem decodeOfEncodeIsIdentity : Obligations.DecodeOfEncodeIsIdentity := by
  intro i hi
  cases i with
  | nop | clear | macAssemble | macDigest | macFold | macCompare | macExpect | macAuth =>
    rfl
  | crcCompute len => exact decodeCommand_commandWord_crcCompute hi
  | crcValidate len i1 i2 =>
    simp only [Instr.wellFormed, Bool.and_eq_true] at hi
    obtain ⟨⟨hlen, h1⟩, h2⟩ := hi
    exact decodeCommand_commandWord_crcValidate hlen h1 h2
  | regRd off => rw [encode, decode, decodeBus_header, mod_of_fitsWindow hi]; rfl
  | regWr off data => rw [encode, decode, decodeBus_header, mod_of_fitsWindow hi]; rfl

/-! ### Encoding what was decoded -/

/-- A word whose three fields are reserved and zero is made of its opcode alone. -/
theorem encode_of_withoutOperands {v : Word} {op : Byte} {i j : Instr} (hop : opField v = op)
    (hi : encode i = .cmdw (commandWord op.toNat 0 0 0)) (h : withoutOperands v i = .ok j) : encode j = .cmdw v := by
  obtain ⟨⟨hA, hB, hC⟩, rfl⟩ := withoutOperands_eq_ok.mp h
  have hv : commandWord op.toNat 0 0 0 = v := by simpa [hop, hA, hB, hC] using commandWord_fields v
  rw [hi, hv]

/-- A legal command word is the encoding of its command: the opcode and the used fields are in the command, the
reserved ones are zero. -/
theorem encode_of_decodeCommand {v : Word} {i : Instr} (h : decodeCommand v = .ok i) : encode i = .cmdw v := by
  rw [decodeCommand_eq] at h
  split_ifs at h with hop hop hop hop hop hop hop hop hop hop
  case pos | pos | pos | pos | pos | pos | pos | pos => exact encode_of_withoutOperands hop rfl h
  · obtain ⟨⟨hB, hC⟩, rfl⟩ := withOperandA_eq_ok.mp h
    have hv : commandWord 0x20 (fieldA v).toNat 0 0 = v := by simpa [hop, hB, hC] using commandWord_fields v
    rw [encode, hv]
  · cases h
    have hv : commandWord 0x21 (fieldA v).toNat (fieldB v).toNat (fieldC v).toNat = v := by
      simpa [hop] using commandWord_fields v
    rw [encode, hv]

/-- A header is made of `we` and the offset. -/
theorem busHeader_fields (hdr : BitVec 13) : busHeader (hdr.getLsbD 12) (hdr.extractLsb' 0 12).toNat = hdr := by
  apply BitVec.eq_of_getLsbD_eq
  intro i hi
  obtain h12 | rfl : i < 12 ∨ i = 12 := by omega
  · have hlow : ∀ x : BitVec 13, x.getLsbD i = (x.extractLsb' 0 12).getLsbD i := fun x => by simp [h12]
    rw [hlow, busHeader_off, BitVec.ofNat_toNat, BitVec.setWidth_eq, ← hlow]
  · exact busHeader_we ..

theorem decodeBus_write {t : BusTxn} (h : t.hdr.getLsbD 12 = true) :
    decodeBus t = .regWr (t.hdr.extractLsb' 0 12).toNat t.data := if_pos h

theorem decodeBus_read {t : BusTxn} (h : t.hdr.getLsbD 12 = false) :
    decodeBus t = .regRd (t.hdr.extractLsb' 0 12).toNat := if_neg (by rw [h]; decide)

theorem encode_decodeBus_hdr (t : BusTxn) : (encode (decodeBus t)).toBus.hdr = t.hdr := by
  have hfields := busHeader_fields t.hdr
  cases h : t.hdr.getLsbD 12 with
  | true => rw [decodeBus_write h]; rwa [h] at hfields
  | false => rw [decodeBus_read h]; rwa [h] at hfields

theorem encode_decodeBus_write {t : BusTxn} (h : t.hdr.getLsbD 12 = true) : (encode (decodeBus t)).toBus = t := by
  have hhdr : (encode (decodeBus t)).toBus.hdr = t.hdr := encode_decodeBus_hdr t
  rw [decodeBus_write h] at hhdr ⊢
  exact congrArg (BusTxn.mk · t.data) hhdr

/-- A transaction is an access, and its twelve offset bits fit the window. -/
theorem decodeBus_isAccess (t : BusTxn) : (decodeBus t).wellFormed = true ∧ (decodeBus t).isCommand = false := by
  have hoff : fitsWindow (t.hdr.extractLsb' 0 12).toNat = true := decide_eq_true (BitVec.isLt _)
  cases h : t.hdr.getLsbD 12 with
  | true => rw [decodeBus_write h]; exact ⟨hoff, rfl⟩
  | false => rw [decodeBus_read h]; exact ⟨hoff, rfl⟩

/-- Settles O5: words and headers are made of their fields, which the decoded instruction keeps. -/
theorem encodeOfDecodeIsIdentity : Obligations.EncodeOfDecodeIsIdentity := by
  refine ⟨fun v i h => ?word, fun t => ?transaction⟩
  case word =>
    obtain ⟨hcommand, hwf⟩ := decodeCommand_isCommand h
    exact ⟨hwf, hcommand, encode_of_decodeCommand h⟩
  case transaction =>
    obtain ⟨hwf, haccess⟩ := decodeBus_isAccess t
    exact ⟨hwf, haccess, encode_decodeBus_hdr t, encode_decodeBus_write⟩

/-- Settles O6: each word is decoded by evaluation. -/
theorem wordsOfTheSpecDecode : Obligations.WordsOfTheSpecDecode := by
  unfold Obligations.WordsOfTheSpecDecode
  decide

end Sys2Proof
end

section
/-! PROOFS, the step (10_state.md R20, 60_exceptions.md R171, R182). A step is
nothing, one access executed or a hardware reset (`step_cases`); an access executed has one of `Effect`'s next states,
and of each of them the facts wanted here can be read off. -/

namespace Sys2Proof.Machine

variable {s t : State} {i : Instr}

/-! ### Every instruction answers (60_exceptions.md R182) -/

theorem exec_command_total (hi : i.isCommand = true) (s : State) : ∃ t, exec i s = .next t := by
  cases he : errorCode i with
  | some c => exact ⟨_, exec_of_errorCode he s⟩
  | none =>
    cases i with
    | regRd | regWr => cases hi
    | crcCompute len =>
      have hlen : ¬ Config.fbBytes < len := fun hlen => by
        cases he.symm.trans (commandError_crcCompute.mpr ⟨hlen, rfl⟩)
      exact ⟨_, execCrcCompute_inRange (Nat.not_lt.mp hlen) s⟩
    | crcValidate len i1 i2 =>
      have hrange : ¬ (Config.fbBytes < len ∨ Config.fbBytes ≤ i1 ∨ Config.fbBytes ≤ i2) := fun hrange => by
        cases he.symm.trans (commandError_crcValidate.mpr ⟨hrange, rfl⟩)
      exact ⟨_, execCrcValidate_inRange (by omega) (by omega) (by omega) s⟩
    | _ => exact ⟨_, rfl⟩

theorem writeReg_total (r : WindowReg) (v : Word) (s : State) : ∃ t, writeReg r v s = .next t := by
  cases r with
  | cmd =>
    rcases exec_regWr_cmd_cases v s with ⟨cmd, hcmd, h⟩ | h
    · obtain ⟨t, ht⟩ := exec_command_total hcmd s
      exact ⟨t, h.trans ht⟩
    · exact ⟨_, h⟩
  | _ => exact ⟨_, rfl⟩

/-- No instruction faults and none is refused. -/
theorem exec_total (i : Instr) (s : State) : ∃ t, exec i s = .next t := by
  cases i with
  | regRd off =>
    cases hr : regAt off with
    | none => exact ⟨_, execRegRd_none hr s⟩
    | some r => exact ⟨_, execRegRd_some hr s⟩
  | regWr off v =>
    cases hr : regAt off with
    | none => exact ⟨_, execRegWr_none hr v s⟩
    | some r =>
      obtain ⟨t, ht⟩ := writeReg_total r v s
      exact ⟨t, (execRegWr_some hr v s).trans ht⟩
  | _ => exact exec_command_total rfl s

/-- The host's further actions are not the block's. -/
theorem Effect.pending_kept (h : Effect s i t) : t.pending = s.pending := by
  cases h <;> rfl

theorem exec_pending (h : exec i s = .next t) : t.pending = s.pending := by
  rcases exec_effect h with hE | ⟨_, _, _, _, hE⟩
  · exact hE.pending_kept
  · exact hE.pending_kept

/-- A command ends with the code it raises in ERR, or with 0. -/
theorem exec_command_err (hi : i.isCommand = true) (h : exec i s = .next t) :
    t.status.err = .none ∨ ∃ c, Raises i s c ∧ t.status.err = c := by
  cases he : errorCode i with
  | some c =>
    cases (exec_of_errorCode he s).symm.trans h
    exact .inr ⟨c, raises_iff.mpr he, rfl⟩
  | none => exact .inl (completingClearsErrAndKeepsSticky i s t hi (errorCode_eq_none_iff.mp he) h).1

/-- Settles O8: `exec` answers for every instruction (`exec_total`) and leaves the host's further actions
(`exec_pending`), of which a step has taken the first. -/
theorem everyStepAnswersANextState : Obligations.EveryStepAnswersANextState := by
  refine ⟨fun i s => ?instr, fun s => ?step⟩
  case instr =>
    obtain ⟨t, ht⟩ := exec_total i s
    exact ⟨t, ht, exec_pending ht, fun hi => exec_command_err hi ht⟩
  case step =>
    rcases step_cases s with ⟨hp, h⟩ | ⟨a, rest, hp, h⟩ | ⟨rest, hp, h⟩
    · exact ⟨s, h, by rw [hp]; rfl⟩
    · obtain ⟨t, ht⟩ := exec_total (decodeBus a) { s with pending := rest }
      exact ⟨t, h.trans ht, by rw [exec_pending ht, hp]; rfl⟩
    · exact ⟨_, h, by rw [hp]; rfl⟩

/-! ### The invariant of STATUS (60_exceptions.md R171, R172) -/

/-- Every effect raises, which sets ERR_STICKY, or sets ERR to 0, or leaves both fields. -/
theorem Effect.errIsSticky (h : Effect s i t) (hs : s.ErrIsSticky) : t.ErrIsSticky := by
  cases h with
  | raises => exact fun _ => rfl
  | read | writePaddr | writeChal | writeSec | writeId | writeW | writeDmac | writePage | writeFb => exact hs
  | _ => exact fun herr => absurd rfl herr

theorem exec_errIsSticky (hs : s.ErrIsSticky) (h : exec i s = .next t) : t.ErrIsSticky := by
  rcases exec_effect h with hE | ⟨_, _, _, _, hE⟩
  · exact hE.errIsSticky hs
  · exact hE.errIsSticky hs

theorem afterReset_errIsSticky (n : Nat) (pending : List HostAction) : (State.afterReset n pending).ErrIsSticky :=
  fun herr => absurd rfl herr

/-- Settles O9: an idle step keeps the state, an access executed keeps the invariant (`exec_errIsSticky`), and a reset
leaves ERR at 0. -/
theorem stepKeepsErrorsSticky : Obligations.StepKeepsErrorsSticky := by
  intro s t hs h
  rcases step_cases s with ⟨_, hstep⟩ | ⟨_, rest, _, hstep⟩ | ⟨rest, _, hstep⟩
  · cases hstep.symm.trans h
    exact hs
  · exact exec_errIsSticky (s := { s with pending := rest }) hs (hstep.symm.trans h)
  · cases hstep.symm.trans h
    exact afterReset_errIsSticky _ rest

/-- Settles O10: the state after reset is `afterReset`'s. -/
theorem resetMeetsErrorsSticky : Obligations.ResetMeetsErrorsSticky := afterReset_errIsSticky 0 []

/-! ### The step runs the decoded instruction (10_state.md R23, 30_encoding.md R74) -/

/-- What the port carries for a legal encoding executes as the instruction the encoding decodes to. -/
theorem exec_decodeBus_toBus {e : Encoded} (h : decode e = .ok i) (s : State) :
    exec (decodeBus e.toBus) s = exec i s := by
  cases e with
  | cmdw v => rw [decodeBus_cmdw, exec_regWr_cmd_ok h]
  | bus a => cases h; rfl

theorem exec_decodeBus_toBus_error {e : Encoded} {x : DecodeError} (h : decode e = .error x) (s : State) :
    exec (decodeBus e.toBus) s = .next (s.err .illegalCmd) := by
  cases e with
  | cmdw v => rw [decodeBus_cmdw, exec_regWr_cmd_error h]
  | bus a => cases h

/-- Settles O7: a pending access executes as its transaction decodes (`step_access`), and that of a command is the
write of its word to CMD. -/
theorem stepRunsTheDecodedInstruction : Obligations.StepRunsTheDecodedInstruction :=
  ⟨fun _ _ _ _ hp h => (step_access hp).trans (exec_decodeBus_toBus h _),
    fun _ _ _ _ hp h => (step_access hp).trans (exec_decodeBus_toBus_error h _),
    fun _ hp => step_idle hp, fun _ _ hp => step_hardReset hp⟩

end Sys2Proof.Machine
end

section
/-! PROOFS, the words of the window (20_memory.md R52, R60, 10_state.md R24). A write of a data register leaves a word
that is read back there (`writtenWord`) and every other word of the window as it was (`writeReg_reads`); each access is
idempotent because a register's write is. -/

namespace Sys2Proof.Machine

/-! ### The data registers (10_state.md R30, R31) -/

theorem windowWord_offset (r : WindowReg) (s : State) : windowWord r.offset s = readReg r s := by
  rw [windowWord, regAt_offset]

/-- A packed register whose bytes at a word are those of `x` reads as `x` there. -/
theorem packWord_eq_of_bytes {n k : Nat} {v : Vector Byte n} {x : Word} (h : 4 * k + 3 < n)
    (hbyte : ∀ j, (hj : j < 4) → v[4 * k + j] = byteOf j x) : packWord v k h = x := by
  have hfirst : v[4 * k] = byteOf 0 x := hbyte 0 (by omega)
  rw [packWord, hfirst, hbyte 1 (by omega), hbyte 2 (by omega), hbyte 3 (by omega), le32_bytesOf]

/-- A write of one word of a packed register leaves its other words. -/
theorem packWord_unpackWord_of_ne {n m : Nat} {reg : Fin m → WindowReg} {k l : Fin m} (hne : reg l ≠ reg k)
    (v : Vector Byte n) (data : Word) (hk : 4 * k.val + 3 < n) (hl : 4 * l.val + 3 < n) :
    packWord (unpackWord v k data hk) l hl = packWord v l hl :=
  packWord_unpackWord_ne v k l data hk hl fun h => hne (congrArg reg (Fin.ext h))

/-- A reserved or misaligned offset aside, an offset is a register word's. -/
theorem exists_offset_eq {off : Nat} (h4 : off % 4 = 0) (hres : reservedOffset off = false) :
    ∃ r : WindowReg, r.offset = off := by
  obtain ⟨r, hr⟩ : ∃ r, regAt off = some r := Option.ne_none_iff_exists'.mp fun h => by
    rcases regAt_eq_none.mp h with h | h
    · exact h h4
    · rw [hres] at h; cases h
  exact ⟨r, offset_of_regAt hr⟩

theorem not_reserved_of_dataOffset {off : Nat} (h : dataOffset off = true) : reservedOffset off = false := by
  have hfb : Config.fbBytes = 64 := rfl
  rw [dataOffset, decide_eq_true_eq] at h
  rw [reservedOffset, decide_eq_false_iff_not]
  omega

/-- The low three bytes of a word. -/
theorem le32_bytesOf_and (x : Word) : le32 (byteOf 0 x) (byteOf 1 x) (byteOf 2 x) 0 = x &&& 0x00FFFFFF := by
  have hmask : ∀ i < 32, (0x00FFFFFF : Word).getLsbD i = decide (i < 24) := by decide
  rw [← le32_bytesOf x]
  apply BitVec.eq_of_getLsbD_eq
  intro i hi
  rw [BitVec.getLsbD_and, hmask i hi]
  simp only [byteOf_zero_le32, byteOf_one_le32, byteOf_two_le32, le32_getLsbD]
  split_ifs with h8 h16 h24
  · rw [decide_eq_true (by omega), Bool.and_true]
  · rw [decide_eq_true (by omega), Bool.and_true]
  · rw [decide_eq_true h24, Bool.and_true]
  · rw [decide_eq_false h24, Bool.and_false]; exact BitVec.getLsbD_zero

/-- The low half of a word. -/
theorem setWidth_low_half (x : Word) : (x.extractLsb' 0 16).setWidth 32 = x &&& 0x0000FFFF := by
  have hmask : ∀ i < 32, (0x0000FFFF : Word).getLsbD i = decide (i < 16) := by decide
  apply BitVec.eq_of_getLsbD_eq
  intro i hi
  rw [BitVec.getLsbD_and, hmask i hi, BitVec.getLsbD_setWidth, BitVec.getLsbD_extractLsb', decide_eq_true hi,
    Bool.true_and, Bool.and_comm, Nat.zero_add]

/-- The word that stands in the data register word `r` after a write of `v`: the bits PADDR and CHAL do not have are
dropped (10_state.md R30, R31). -/
def writtenWord (r : WindowReg) (v : Word) : Word :=
  match r with
  | .paddr => v &&& 0x0000FFFF
  | .chal => v &&& 0x00FFFFFF
  | _ => v

/-- A write of a data register word changes that word of the window and no other. -/
theorem writeReg_reads {r : WindowReg} (hr : dataOffset r.offset = true) (v : Word) (s : State) :
    ∃ t, writeReg r v s = .next t ∧ readReg r t = writtenWord r v ∧ ∀ q, q ≠ r → readReg q t = readReg q s := by
  cases r with
  | cmd | status | crc => exact absurd hr (by decide)
  | h k | mac k =>
    rw [dataOffset, decide_eq_true_eq] at hr
    simp only [WindowReg.offset] at hr
    omega
  | paddr =>
    refine ⟨_, rfl, setWidth_low_half v, fun q hq => ?_⟩
    cases q with
    | paddr => exact absurd rfl hq
    | _ => rfl
  | chal =>
    refine ⟨_, rfl, le32_bytesOf_and v, fun q hq => ?_⟩
    cases q with
    | chal => exact absurd rfl hq
    | _ => rfl
  | w k =>
    refine ⟨_, rfl, Vector.getElem_set_self .., fun q hq => ?_⟩
    cases q with
    | w l => exact Vector.getElem_set_ne k.isLt l.isLt fun h => hq (congrArg WindowReg.w (Fin.ext h.symm))
    | _ => rfl
  | sec k =>
    refine ⟨_, rfl, packWord_unpackWord _ _ _ (by omega), fun q hq => ?_⟩
    cases q with
    | sec l => exact packWord_unpackWord_of_ne hq s.sec v (by omega) (by omega)
    | _ => rfl
  | id k =>
    refine ⟨_, rfl, packWord_unpackWord _ _ _ (by omega), fun q hq => ?_⟩
    cases q with
    | id l => exact packWord_unpackWord_of_ne hq s.id v (by omega) (by omega)
    | _ => rfl
  | dmac k =>
    refine ⟨_, rfl, packWord_unpackWord _ _ _ (by omega), fun q hq => ?_⟩
    cases q with
    | dmac l => exact packWord_unpackWord_of_ne hq s.dmac v (by omega) (by omega)
    | _ => rfl
  | page k =>
    refine ⟨_, rfl, packWord_unpackWord _ _ _ (by omega), fun q hq => ?_⟩
    cases q with
    | page l => exact packWord_unpackWord_of_ne hq s.page v (by omega) (by omega)
    | _ => rfl
  | fb k =>
    refine ⟨_, rfl, packWord_unpackWord _ _ _ (by omega), fun q hq => ?_⟩
    cases q with
    | fb l => exact packWord_unpackWord_of_ne hq s.fb v (by omega) (by omega)
    | _ => rfl

/-- The dropped bits by the offset: PADDR stands at 0x010 alone and CHAL at 0x014 alone. -/
theorem writtenWord_eq_ite (r : WindowReg) (v : Word) : writtenWord r v =
    if r.offset = 0x010 then v &&& 0x0000FFFF else if r.offset = 0x014 then v &&& 0x00FFFFFF else v := by
  cases r with
  | paddr | chal => rfl
  | _ => rw [if_neg, if_neg] <;> first | rfl | (simp only [WindowReg.offset]; omega)

/-- Settles O22: the offset is a data register word's, which then holds the written word (`writeReg_reads`). -/
theorem writeThenReadReturnsTheWord : Obligations.WriteThenReadReturnsTheWord := by
  intro off v s h4 hdata
  obtain ⟨r, rfl⟩ := exists_offset_eq h4 (not_reserved_of_dataOffset hdata)
  obtain ⟨t, ht, hread, _⟩ := writeReg_reads hdata v s
  refine ⟨t, (exec_regWr_offset r v s).trans ht, ?_⟩
  rw [← writtenWord_eq_ite, ← hread]
  exact exec_regRd_offset r t

/-- Settles O23: the other offset is none of the map, where the window reads 0, or another register word's
(`writeReg_reads`). -/
theorem writeLeavesEveryOtherWord : Obligations.WriteLeavesEveryOtherWord := by
  intro off other v s h4 hdata hne
  obtain ⟨r, rfl⟩ := exists_offset_eq h4 (not_reserved_of_dataOffset hdata)
  obtain ⟨t, ht, _, hother⟩ := writeReg_reads hdata v s
  refine ⟨t, (exec_regWr_offset r v s).trans ht, ?_⟩
  cases hq : regAt other with
  | none => simp only [windowWord, hq]
  | some q =>
    cases offset_of_regAt hq
    rw [windowWord_offset, windowWord_offset]
    exact hother q (by rintro rfl; exact hne rfl)

/-! ### Idempotence (20_memory.md R60) -/

/-- The word a read answers is no register's. -/
theorem readReg_respond (r : WindowReg) (x : Word) (s : State) : readReg r (s.respond x) = readReg r s := by
  cases r <;> rfl

theorem State.respond_respond (x y : Word) (s : State) : (s.respond x).respond y = s.respond y := rfl

theorem exec_regRd_some {off : Nat} {r : WindowReg} (h : regAt off = some r) (s : State) :
    exec (.regRd off) s = .next (s.respond (readReg r s)) := execRegRd_some h s

theorem unpackWord_unpackWord {n : Nat} (v : Vector Byte n) (k : Nat) (data : Word) (h : 4 * k + 3 < n) :
    unpackWord (unpackWord v k data h) k data h = unpackWord v k data h := by
  refine Vector.ext fun j hj => ?_
  rw [unpackWord_get, unpackWord_get]
  split_ifs <;> rfl

theorem exec_regRd_idem (off : Nat) (s : State) :
    ∃ t, exec (.regRd off) s = .next t ∧ exec (.regRd off) t = .next t := by
  cases hr : regAt off with
  | none => exact ⟨_, execRegRd_none hr s, execRegRd_none hr _⟩
  | some r =>
    refine ⟨_, exec_regRd_some hr s, ?_⟩
    rw [exec_regRd_some hr, readReg_respond, State.respond_respond]

theorem writeReg_idem {r : WindowReg} (hr : r ≠ .cmd) (v : Word) (s : State) :
    ∃ t, writeReg r v s = .next t ∧ writeReg r v t = .next t := by
  cases r with
  | cmd => exact absurd rfl hr
  | status | crc | h | mac | paddr | chal => exact ⟨_, rfl, rfl⟩
  | w k => exact ⟨_, rfl, by simp only [writeReg, Vector.set_set]⟩
  | sec | id | dmac | page | fb => exact ⟨_, rfl, by simp only [writeReg, unpackWord_unpackWord]⟩

/-- Settles O24: the second of two equal accesses finds in the register, or in ERR, what the first left. -/
theorem accessesAreIdempotent : Obligations.AccessesAreIdempotent := by
  refine ⟨exec_regRd_idem, fun off v s hoff => ?_⟩
  cases hr : regAt off with
  | none => exact ⟨_, execRegWr_none hr v s, execRegWr_none hr v _⟩
  | some r =>
    cases offset_of_regAt hr
    simp only [exec_regWr_offset]
    exact writeReg_idem (by rintro rfl; exact hoff rfl) v s

/-! ### STATUS (10_state.md R24, R27) -/

/-- The bits of STATUS are its fields, for each of its 32 values. -/
theorem Status.toWord_fields (st : Status) :
    st.toWord.getLsbD 0 = st.frameOk ∧ st.toWord.getLsbD 1 = st.macEq ∧ st.toWord.extractLsb' 4 4 = st.err.code ∧
      st.toWord.getLsbD 8 = st.errSticky ∧ st.toWord.extractLsb' 2 2 = 0 ∧ st.toWord.extractLsb' 9 23 = 0 := by
  obtain ⟨err, errSticky, frameOk, macEq⟩ := st
  revert errSticky frameOk macEq
  cases err <;> decide

/-- Settles O13: the read answers `Status.toWord`, whose bits are the fields' (`Status.toWord_fields`). -/
theorem statusReadsByFields : Obligations.StatusReadsByFields := by
  intro s
  refine ⟨s.status.toWord, exec_regRd_offset .status s, ?_⟩
  obtain ⟨hframeOk, hmacEq, herr, hrest⟩ := s.status.toWord_fields
  refine ⟨hframeOk, hmacEq, herr.trans ?_, hrest⟩
  cases s.status.err <;> rfl

end Sys2Proof.Machine
end

section
/-! PROOFS, reset (70_reset_and_hazards.md R190, R191). `State.afterReset` gives STATUS the value zero and every data
register a draw; a packed register's words are the draws at their offsets (`packWord_drawnBytes`). -/

namespace Sys2Proof.Machine

theorem drawnBytes_get (n off : Nat) {size j : Nat} (hj : j < size) :
    (drawnBytes n off size)[j] = byteOf (j % 4) (Config.resetDraw n (off + 4 * (j / 4))) := Vector.getElem_ofFn hj

/-- A drawn packed register reads, word by word, as the draws themselves. -/
theorem packWord_drawnBytes (n off : Nat) {size k : Nat} (h : 4 * k + 3 < size) :
    packWord (drawnBytes n off size) k h = Config.resetDraw n (off + 4 * k) := by
  refine packWord_eq_of_bytes h fun j hj => ?_
  have hword : (4 * k + j) / 4 = k := by omega
  have hlane : (4 * k + j) % 4 = j := by omega
  rw [drawnBytes_get, hword, hlane]

theorem drawnWords_get (n off : Nat) {size i : Nat} (hi : i < size) :
    (drawnWords n off size)[i] = Config.resetDraw n (off + 4 * i) := Vector.getElem_ofFn hi

/-- The registers of whole words, those from 0x018 on, read as their draws after a reset. -/
theorem readReg_afterReset {r : WindowReg} (hr : 0x018 ≤ r.offset) (n : Nat) (pending : List HostAction) :
    readReg r (State.afterReset n pending) = Config.resetDraw n r.offset := by
  cases r with
  | cmd | status | crc | paddr | chal => exact absurd hr (by decide)
  | sec k | id k | mac k | dmac k | page k | fb k => exact packWord_drawnBytes ..
  | w k | h k => exact drawnWords_get ..

/-- Settles O45: every field of `afterReset` is given by its definition, the words of the packed registers by
`readReg_afterReset`. -/
theorem resetLeavesStatusZeroAndDataDrawn : Obligations.ResetLeavesStatusZeroAndDataDrawn := by
  refine ⟨toWord_cleared, windowWord_offset .cmd _, step_idle rfl, fun s rest hp =>
    ⟨_, step_hardReset hp, toWord_cleared, windowWord_offset .cmd _, rfl, rfl, rfl, ?chal,
      fun off h4 hoff hres => ?word⟩⟩
  case chal => exact (windowWord_offset .chal _).trans (le32_bytesOf_and _)
  case word =>
    obtain ⟨r, rfl⟩ := exists_offset_eq h4 hres
    rw [windowWord_offset]
    exact readReg_afterReset hoff ..

end Sys2Proof.Machine
end

section
/-! PROOFS, the CRC unit (41_crc.md). A byte's eight bit steps are linear and injective in the CRC register, because
the reflected constant has its top bit set; so the complemented CRC bytes leave one fixed residue, and a changed byte
changes every CRC behind it. -/

namespace Sys2Proof.Machine

/-! ### The commands (41_crc.md R102, R103) -/

/-- The fields of four joined bytes. -/
theorem fields_append {v : Word} {op a b c : Byte} (hv : v = c ++ b ++ a ++ op) :
    opField v = op ∧ fieldA v = a ∧ fieldB v = b ∧ fieldC v = c := by
  have hword : v = commandWord op.toNat a.toNat b.toNat c.toNat := by
    simp only [hv, commandWord, BitVec.ofNat_toNat, BitVec.setWidth_eq]
  rw [hword, opField_commandWord, fieldA_commandWord, fieldB_commandWord, fieldC_commandWord]
  simp only [BitVec.ofNat_toNat, BitVec.setWidth_eq, and_self]

theorem exec_crcCompute (len : Nat) (s : State) : exec (.crcCompute len) s = execCrcCompute len s := rfl

theorem exec_crcValidate (len i1 i2 : Nat) (s : State) :
    exec (.crcValidate len i1 i2) s = execCrcValidate len i1 i2 s := rfl

theorem crc16_zero (s : State) : crc16 0 s = 0x0000#16 := rfl

/-- Settles O26: the two sides of the range check, and the word of the fields by `fields_append`. -/
theorem crcComputeLeavesTheCrc : Obligations.CrcComputeLeavesTheCrc := by
  refine ⟨fun len s => ?exec, fun s => ?zero, fun len s => ?legal, fun b c len s h => ?illegal⟩
  case exec =>
    rw [exec_crcCompute]
    split
    case isTrue h => exact execCrcCompute_outOfRange h s
    case isFalse h => exact execCrcCompute_inRange (Nat.not_lt.mp h) s
  case zero => exact execCrcCompute_inRange (Nat.zero_le _) s
  case legal =>
    obtain ⟨hop, hA, hB, hC⟩ := fields_append (op := 0x20#8) (a := len) (b := 0#8) (c := 0#8) rfl
    refine exec_regWr_cmd_ok ?_ s
    rw [decodeCommand_crcCompute hop, withOperandA_eq_ok, hA]
    exact ⟨⟨hB, hC⟩, rfl⟩
  case illegal =>
    obtain ⟨hop, hA, hB, hC⟩ := fields_append (op := 0x20#8) (a := len) (b := b) (c := c) rfl
    exact exec_regWr_cmd_error ((decodeCommand_crcCompute hop).trans (withOperandA_eq_error (by rwa [hB, hC]))) s

theorem frameOkFlag_eq_decide (c : Half) (b1 b2 : Byte) :
    frameOkFlag c b1 b2 = decide (b1 = (~~~c).extractLsb' 0 8 ∧ b2 = (~~~c).extractLsb' 8 8) := by
  rw [frameOkFlag, Bool.decide_and, beq_eq_decide, beq_eq_decide]

/-- Settles O27: the two sides of the range check, FRAME_OK as `frameOkFlag`, and the word of the fields by
`fields_append`. -/
theorem crcValidateComparesTheCrcBytes : Obligations.CrcValidateComparesTheCrcBytes := by
  refine ⟨fun len i1 i2 s h => execCrcValidate_outOfRange h s, fun len i1 i2 s h h1 h2 => ?completes,
    fun len i1 i2 s => ?word⟩
  case completes => rw [exec_crcValidate, execCrcValidate_inRange h h1 h2, frameOkFlag_eq_decide]
  case word =>
    obtain ⟨hop, hA, hB, hC⟩ := fields_append (op := 0x21#8) (a := len) (b := i1) (c := i2) rfl
    refine exec_regWr_cmd_ok ?_ s
    rw [decodeCommand_crcValidate hop, hA, hB, hC]

/-! ### The recurrence (41_crc.md R100) -/

theorem crcBitSteps_eq_iterate (poly : Half) (n : Nat) (c : Half) : crcBitSteps poly n c = (crcBitStep poly)^[n] c := by
  induction n generalizing c with
  | zero => rfl
  | succ n ih => exact ih _

theorem crc16_succ {len : Nat} (h : len < Config.fbBytes) (s : State) :
    crc16 (len + 1) s = crcByteStep Config.crcPolyRefl (crc16 len s) s.fb[len] := by
  rw [crc16, frameBytes_succ h, crcOver_snoc, ← crc16]

/-- Settles O29: one byte more is `crcByteStep`, eight bit steps iterated. -/
theorem crcFollowsTheBitRecurrence : Obligations.CrcFollowsTheBitRecurrence := by
  refine fun s => ⟨crc16_zero s, fun j hj => ?_⟩
  rw [crc16_succ hj, crcByteStep, crcBitSteps_eq_iterate, BitVec.setWidth_eq_append (by decide)]
  rfl

/-! ### The residue (41_crc.md R105 (a)) -/

/-- A bit step as a shift and a masked constant. -/
theorem crcBitStep_eq_xor (poly c : Half) : crcBitStep poly c = c >>> 1 ^^^ (if c.getLsbD 0 then poly else 0) := by
  rw [crcBitStep]
  split
  · rfl
  · exact BitVec.xor_zero.symm

theorem crcBitStep_xor (poly c d : Half) : crcBitStep poly (c ^^^ d) = crcBitStep poly c ^^^ crcBitStep poly d := by
  have hmask : (if (c ^^^ d).getLsbD 0 then poly else 0) =
      (if c.getLsbD 0 then poly else 0) ^^^ (if d.getLsbD 0 then poly else 0) := by
    rw [BitVec.getLsbD_xor]
    cases c.getLsbD 0 <;> cases d.getLsbD 0 <;> simp
  rw [crcBitStep_eq_xor, crcBitStep_eq_xor, crcBitStep_eq_xor, hmask, BitVec.ushiftRight_xor_distrib]
  ac_rfl

/-- The bit steps are linear. -/
theorem crcBitSteps_xor (poly : Half) (n : Nat) (c d : Half) :
    crcBitSteps poly n (c ^^^ d) = crcBitSteps poly n c ^^^ crcBitSteps poly n d := by
  induction n generalizing c d with
  | zero => rfl
  | succ n ih => rw [crcBitSteps, crcBitStep_xor, ih]; rfl

/-- Where the low bits are zero the steps only shift. -/
theorem crcBitSteps_of_low_zero (poly : Half) (n : Nat) (c : Half) (h : ∀ i, i < n → c.getLsbD i = false) :
    crcBitSteps poly n c = c >>> n := by
  induction n generalizing c with
  | zero => exact (BitVec.ushiftRight_zero c).symm
  | succ n ih =>
    have hstep : crcBitStep poly c = c >>> 1 := by rw [crcBitStep, h 0 (by omega)]; rfl
    rw [crcBitSteps, hstep, ih, ← BitVec.shiftRight_add, Nat.add_comm]
    intro i hi
    rw [BitVec.getLsbD_ushiftRight]
    exact h (1 + i) (by omega)

theorem getLsbD_low_byte_mask {i : Nat} (hi : i < 16) : (0x00FF#16).getLsbD i = decide (i < 8) := by
  revert i
  decide

/-- The complemented low byte turns a CRC's low byte into 0xFF. -/
theorem xor_low_complement (c : Half) :
    c ^^^ ((~~~c).extractLsb' 0 8).setWidth 16 = (c >>> 8) <<< 8 ^^^ 0x00FF#16 := by
  apply BitVec.eq_of_getLsbD_eq
  intro i hi
  simp only [BitVec.getLsbD_xor, BitVec.getLsbD_setWidth, BitVec.getLsbD_extractLsb', BitVec.getLsbD_not,
    BitVec.getLsbD_shiftLeft, BitVec.getLsbD_ushiftRight, getLsbD_low_byte_mask hi, hi, Nat.zero_add]
  by_cases h8 : i < 8
  · simp [h8]
  · have hback : 8 + (i - 8) = i := by omega
    simp [h8, hback]

/-- The complemented high byte turns the high byte, shifted down, into 0xFF. -/
theorem xor_high_complement (c : Half) : c >>> 8 ^^^ ((~~~c).extractLsb' 8 8).setWidth 16 = 0x00FF#16 := by
  apply BitVec.eq_of_getLsbD_eq
  intro i hi
  simp only [BitVec.getLsbD_xor, BitVec.getLsbD_setWidth, BitVec.getLsbD_extractLsb', BitVec.getLsbD_not,
    BitVec.getLsbD_ushiftRight, getLsbD_low_byte_mask hi, hi]
  by_cases h8 : i < 8
  · have h16 : 8 + i < 16 := by omega
    simp [h8, h16]
  · simp [h8, BitVec.getLsbD_of_ge c (8 + i) (by omega)]

/-- A high byte alone is carried down by eight steps. -/
theorem crcBitSteps_high (poly c : Half) : crcBitSteps poly 8 ((c >>> 8) <<< 8) = c >>> 8 := by
  rw [crcBitSteps_of_low_zero]
  · apply BitVec.eq_of_getLsbD_eq
    intro i hi
    rw [BitVec.getLsbD_ushiftRight, BitVec.getLsbD_shiftLeft, Nat.add_sub_cancel_left, BitVec.getLsbD_ushiftRight]
    by_cases h8 : 8 + i < 16
    · simp [h8]
    · rw [BitVec.getLsbD_of_ge c (8 + i) (by omega), Bool.and_false]
  · intro i hi
    rw [BitVec.getLsbD_shiftLeft, decide_eq_true hi, Bool.not_true, Bool.and_false, Bool.false_and]

/-- After both complemented bytes nothing of the CRC is left: the first leaves `c >>> 8 ^^^ 0x4040`, the second makes
that 0x40BF before its steps. -/
theorem crcByteSteps_complement (c : Half) :
    crcByteStep Config.crcPolyRefl (crcByteStep Config.crcPolyRefl c ((~~~c).extractLsb' 0 8))
      ((~~~c).extractLsb' 8 8) = 0xB001#16 := by
  have hlow : crcBitSteps Config.crcPolyRefl 8 0x00FF#16 = 0x4040#16 := by decide
  have hresidue : crcBitSteps Config.crcPolyRefl 8 (0x00FF#16 ^^^ 0x4040#16) = 0xB001#16 := by decide
  have hfirst : crcByteStep Config.crcPolyRefl c ((~~~c).extractLsb' 0 8) = c >>> 8 ^^^ 0x4040#16 := by
    rw [crcByteStep, xor_low_complement, crcBitSteps_xor, crcBitSteps_high, hlow]
  rw [hfirst, crcByteStep, BitVec.xor_assoc, BitVec.xor_comm 0x4040#16, ← BitVec.xor_assoc, xor_high_complement,
    hresidue]

/-- Settles O30: the two bytes behind the frame are those of `crcByteSteps_complement`. -/
theorem frameWithItsCrcHasTheResidue : Obligations.FrameWithItsCrcHasTheResidue := by
  intro len s h hlow hhigh
  refine ⟨_, execCrcCompute_inRange h s, ?_⟩
  show crc16 (len + 1 + 1) s = _
  rw [crc16_succ (by omega), crc16_succ (by omega), hlow, hhigh, crcByteSteps_complement]

/-! ### Single-bit corruption (41_crc.md R105 (b)) -/

/-- Where the constant has its top bit set, the top bit after a step is the bit shifted out. -/
theorem crcBitStep_top {poly : Half} (h : poly.getLsbD 15 = true) (c : Half) :
    (crcBitStep poly c).getLsbD 15 = c.getLsbD 0 := by
  have hout : (c >>> 1).getLsbD 15 = false := by
    rw [BitVec.getLsbD_ushiftRight]
    exact BitVec.getLsbD_of_ge c 16 (by omega)
  rw [crcBitStep_eq_xor, BitVec.getLsbD_xor, hout, Bool.false_xor]
  cases c.getLsbD 0
  · exact BitVec.getLsbD_zero
  · exact h

/-- So a step can be undone. -/
theorem crcBitStep_injective {poly : Half} (h : poly.getLsbD 15 = true) : Function.Injective (crcBitStep poly) := by
  intro c d hcd
  have hlow : c.getLsbD 0 = d.getLsbD 0 := by rw [← crcBitStep_top h, hcd, crcBitStep_top h]
  have hshift : c >>> 1 = d >>> 1 := by
    rw [crcBitStep_eq_xor, crcBitStep_eq_xor, hlow] at hcd
    exact (BitVec.xor_left_inj _).mp hcd
  apply BitVec.eq_of_getLsbD_eq
  intro i hi
  cases i with
  | zero => exact hlow
  | succ i =>
    have hbit : (c >>> 1).getLsbD i = (d >>> 1).getLsbD i := congrArg (·.getLsbD i) hshift
    rwa [BitVec.getLsbD_ushiftRight, BitVec.getLsbD_ushiftRight, Nat.add_comm] at hbit

theorem crcByteStep_inj {poly : Half} (h : poly.getLsbD 15 = true) {c d : Half} {a b : Byte}
    (heq : crcByteStep poly c a = crcByteStep poly d b) : c ^^^ a.setWidth 16 = d ^^^ b.setWidth 16 := by
  rw [crcByteStep, crcByteStep, crcBitSteps_eq_iterate, crcBitSteps_eq_iterate] at heq
  exact (crcBitStep_injective h).iterate 8 heq

/-- The CRC register before a list of bytes is determined by the one after it. -/
theorem crcOver_injective {poly : Half} (h : poly.getLsbD 15 = true) (bs : List Byte) :
    Function.Injective fun c => crcOver poly c bs := by
  induction bs with
  | nil => exact fun _ _ => id
  | cons b bs ih => exact fun _ _ heq => (BitVec.xor_left_inj _).mp (crcByteStep_inj h (ih heq))

/-- So is each byte, the others standing. -/
theorem crcOver_set_inj {poly : Half} (h : poly.getLsbD 15 = true) {bs : List Byte} {j : Nat} (hj : j < bs.length)
    {c : Half} {b : Byte} (heq : crcOver poly c (bs.set j b) = crcOver poly c bs) : b = bs[j] := by
  induction bs generalizing j c with
  | nil => cases hj
  | cons a bs ih =>
    cases j with
    | zero =>
      have hxor : b.setWidth 16 = a.setWidth 16 :=
        (BitVec.xor_right_inj _).mp (crcByteStep_inj h (crcOver_injective h bs heq))
      simpa using congrArg (BitVec.setWidth 8) hxor
    | succ j => exact ih _ heq

theorem frameBytes_set {j : Nat} (hj : j < Config.fbBytes) (len : Nat) (b : Byte) (s : State) :
    frameBytes len { s with fb := s.fb.set j b } = (frameBytes len s).set j b := by
  rw [frameBytes, frameBytes, Vector.toList_set, List.take_set]

theorem frameBytes_length {len : Nat} (h : len ≤ Config.fbBytes) (s : State) : (frameBytes len s).length = len := by
  rw [frameBytes, List.length_take, Vector.length_toList, Nat.min_eq_left h]

theorem frameBytes_get {len j : Nat} {s : State} (h : j < (frameBytes len s).length) (hj : j < Config.fbBytes) :
    (frameBytes len s)[j] = s.fb[j] := by
  simp only [frameBytes, List.getElem_take, Vector.getElem_toList]

/-- A changed byte among those a CRC covers changes the CRC. -/
theorem crc16_set_ne {len j : Nat} (hj : j < len) (hlen : len ≤ Config.fbBytes) {b : Byte} {s : State}
    (hb : b ≠ s.fb[j]) : crc16 len { s with fb := s.fb.set j b } ≠ crc16 len s := by
  intro heq
  have hlength : j < (frameBytes len s).length := by rwa [frameBytes_length hlen]
  rw [crc16, frameBytes_set (by omega)] at heq
  exact hb ((crcOver_set_inj (by decide) hlength heq).trans (frameBytes_get hlength (by omega)))

/-- A byte a CRC does not cover leaves it. -/
theorem crc16_set_of_le {len j : Nat} (hj : len ≤ j) (hfb : j < Config.fbBytes) (b : Byte) (s : State) :
    crc16 len { s with fb := s.fb.set j b } = crc16 len s := by
  have hframe : frameBytes len { s with fb := s.fb.set j b } = frameBytes len s :=
    frameBytes_congr fun i hi hi' => Vector.getElem_set_ne hfb hi' (by omega)
  rw [crc16, hframe, crc16]

/-- A half word is its two bytes. -/
theorem half_ext {x y : Half} (hlow : x.extractLsb' 0 8 = y.extractLsb' 0 8)
    (hhigh : x.extractLsb' 8 8 = y.extractLsb' 8 8) : x = y := by
  apply BitVec.eq_of_getLsbD_eq
  intro i hi
  have hbit : ∀ z : Half, z.getLsbD i =
      if i < 8 then (z.extractLsb' 0 8).getLsbD i else (z.extractLsb' 8 8).getLsbD (i - 8) := by
    intro z
    rw [BitVec.getLsbD_extractLsb', BitVec.getLsbD_extractLsb', Nat.zero_add]
    split
    case isTrue h8 => rw [decide_eq_true h8, Bool.true_and]
    case isFalse h8 => rw [decide_eq_true (by omega), Bool.true_and, Nat.add_sub_cancel' (by omega)]
  rw [hbit x, hbit y, hlow, hhigh]

theorem flip_ne {k : Nat} (hk : k < 8) (b : Byte) : b ^^^ (1#8 <<< k) ≠ b := by
  intro h
  have hbit : (b ^^^ (1#8 <<< k)).getLsbD k = b.getLsbD k := congrArg (·.getLsbD k) h
  simp [hk] at hbit

/-- FRAME_OK does not survive the change of one byte of the data or of the CRC bytes: a data byte changes the CRC, a
CRC byte is no longer the CRC's. -/
theorem frameOk_set {len j : Nat} (h : len + 2 ≤ Config.fbBytes) (hj : j < len + 2) {b : Byte} {s : State}
    (hb : b ≠ s.fb[j]) (hok : frameOkFlag (crc16 len s) s.fb[len] s.fb[len + 1] = true) :
    frameOkFlag (crc16 len { s with fb := s.fb.set j b }) (s.fb.set j b)[len] (s.fb.set j b)[len + 1] = false := by
  rw [frameOkFlag_eq_decide, decide_eq_true_eq] at hok
  obtain ⟨hlow, hhigh⟩ := hok
  rw [frameOkFlag_eq_decide, decide_eq_false_iff_not]
  rintro ⟨hlow', hhigh'⟩
  obtain hdata | rfl | rfl : j < len ∨ j = len ∨ j = len + 1 := by omega
  · rw [Vector.getElem_set_ne _ _ (by omega), hlow] at hlow'
    rw [Vector.getElem_set_ne _ _ (by omega), hhigh] at hhigh'
    exact crc16_set_ne hdata (by omega) hb (BitVec.not_inj.mp (half_ext hlow' hhigh')).symm
  · rw [Vector.getElem_set_self, crc16_set_of_le le_rfl, ← hlow] at hlow'
    exact hb hlow'
  · rw [Vector.getElem_set_self, crc16_set_of_le (Nat.le_succ _), ← hhigh] at hhigh'
    exact hb hhigh'

/-- Settles O31: the command completes on both states, and a flipped bit changes its byte (`frameOk_set`). -/
theorem singleBitCorruptionIsRejected : Obligations.SingleBitCorruptionIsRejected := by
  intro len j k s t h hj hk ht hok
  have hexec := execCrcValidate_inRange (len := len) (i1 := len) (i2 := len + 1) (by omega) (by omega) (by omega)
  cases (hexec s).symm.trans ht
  exact ⟨_, hexec _, frameOk_set h hj (flip_ne hk _) hok, rfl⟩

/-! ### What the CRC commands read (70_reset_and_hazards.md R193) -/

/-- Settles O32: the CRC is that of the covered bytes (`frameBytes_congr`), and FRAME_OK reads the two others. -/
theorem crcReadsOnlyTheFrame : Obligations.CrcReadsOnlyTheFrame := by
  intro len i1 i2 s t s' t' hlen h1 h2 hframe hi1 hi2 hs ht
  cases (execCrcValidate_inRange hlen h1 h2 s).symm.trans hs
  cases (execCrcValidate_inRange hlen h1 h2 t).symm.trans ht
  have hcrc : crc16 len s = crc16 len t := by rw [crc16, frameBytes_congr hframe, crc16]
  exact ⟨hcrc, by simp only [hcrc, hi1, hi2]⟩

end Sys2Proof.Machine
end

section
/-! PROOFS, the digest and the fold run (42_mac_digest.md R121 to R124, 10_state.md R36). The schedule's words follow
the rule's recurrence (`extendSchedule_getD`), the rounds over its first `t + 1` words are one round after those over
its first `t` (`workAfter_succ`), and the model's round is the rule's. -/

namespace Sys2Proof.Machine

/-! ### The schedule (42_mac_digest.md R121) -/

theorem rotl_eq_rotateLeft {n : Nat} (h : n < 32) (x : Word) : rotl n x = BitVec.rotateLeft x n := by
  rw [rotl, BitVec.rotateLeft, BitVec.rotateLeftAux, Nat.mod_eq_of_lt h]

/-- The value of a schedule word from those before it. -/
def scheduleRule (w : Nat → Word) (t : Nat) : Word := rotl 1 (w (t - 3) ^^^ w (t - 8) ^^^ w (t - 14) ^^^ w (t - 16))

theorem extendSchedule_getD_length (n : Nat) (ws : List Word) :
    (extendSchedule (n + 1) ws).getD ws.length 0 = nextScheduleWord ws := by
  rw [extendSchedule, extendSchedule_getD_of_lt n _ (by rw [List.length_append, List.length_singleton]; omega),
    List.getD_append_right _ _ _ _ le_rfl, Nat.sub_self, List.getD_cons_zero]

/-- Each word that is added follows the recurrence. -/
theorem extendSchedule_getD {t : Nat} (n : Nat) (ws : List Word) (h16 : 16 ≤ ws.length) (hlow : ws.length ≤ t)
    (hhigh : t < ws.length + n) :
    (extendSchedule n ws).getD t 0 = scheduleRule (fun i => (extendSchedule n ws).getD i 0) t := by
  induction n generalizing ws with
  | zero => omega
  | succ n ih =>
    obtain rfl | hlater : ws.length = t ∨ ws.length + 1 ≤ t := by omega
    · have hold : ∀ i, i < ws.length → (extendSchedule (n + 1) ws).getD i 0 = ws.getD i 0 :=
        fun i hi => extendSchedule_getD_of_lt (n + 1) ws hi
      rw [extendSchedule_getD_length, scheduleRule, hold _ (by omega), hold _ (by omega), hold _ (by omega),
        hold _ (by omega), nextScheduleWord]
    · have hlength : (ws ++ [nextScheduleWord ws]).length = ws.length + 1 := by
        rw [List.length_append, List.length_singleton]
      exact ih _ (by omega) (by omega) (by omega)

/-- Word `t` of the schedule of `blk`. -/
def scheduleWord (blk : Vector Word 16) (t : Nat) : Word := (schedule blk).getD t 0

theorem scheduleWord_of_lt (blk : Vector Word 16) {t : Nat} (h : t < 16) : scheduleWord blk t = blk[t] := by
  have hlength : t < blk.toList.length := by rwa [Vector.length_toList]
  rw [scheduleWord, schedule_eq, extendSchedule_getD_of_lt _ _ hlength, List.getD_eq_getElem _ _ hlength,
    Vector.getElem_toList]

theorem scheduleWord_rec (blk : Vector Word 16) {t : Nat} (hlow : 16 ≤ t) (hhigh : t < 80) :
    scheduleWord blk t = scheduleRule (scheduleWord blk) t := by
  have hlength : blk.toList.length = 16 := Vector.length_toList
  have hschedule : scheduleWord blk = fun t => (extendSchedule 64 blk.toList).getD t 0 :=
    funext fun t => by rw [scheduleWord, schedule_eq]
  rw [hschedule]
  exact extendSchedule_getD 64 blk.toList (by omega) (by omega) (by omega)

/-! ### The rounds (42_mac_digest.md R120, R121) -/

/-- The working words after the first `t` rounds. -/
def workAfter (blk : Vector Word 16) (t : Nat) : Work := roundsFrom 0 ((schedule blk).take t) digestIV

theorem workAfter_eighty (blk : Vector Word 16) : workAfter blk 80 = sha1d blk := by
  rw [workAfter, List.take_of_length_le (schedule_length blk).le, sha1d]

theorem workAfter_succ (blk : Vector Word 16) {t : Nat} (h : t < 80) :
    workAfter blk (t + 1) = roundStep t (scheduleWord blk t) (workAfter blk t) := by
  have hlength : t < (schedule blk).length := by rwa [schedule_length]
  rw [workAfter, List.take_succ_eq_append_getElem hlength, roundsFrom_append, List.length_take,
    Nat.min_eq_left hlength.le, Nat.zero_add, scheduleWord, List.getD_eq_getElem _ _ hlength]
  rfl

theorem roundF_eq (t : Nat) (b c d : Word) : roundF t b c d =
    if t < 20 then (b &&& c) ||| (~~~ b &&& d)
    else if 40 ≤ t ∧ t < 60 then (b &&& c) ||| (b &&& d) ||| (c &&& d)
    else b ^^^ c ^^^ d := by
  unfold roundF
  split_ifs <;> first | rfl | omega

theorem digestK_eq {t : Nat} (h : t < 80) : digestK (t / 20) =
    if t < 20 then 0x5A827999 else if t < 40 then 0x6ED9EBA1 else if t < 60 then 0x8F1BBCDC else 0xCA62C1D6 := by
  obtain h | h | h | h : t / 20 = 0 ∨ t / 20 = 1 ∨ t / 20 = 2 ∨ t / 20 = 3 := by omega
  · rw [h, if_pos (by omega)]; rfl
  · rw [h, if_neg (by omega), if_pos (by omega)]; rfl
  · rw [h, if_neg (by omega), if_neg (by omega), if_pos (by omega)]; rfl
  · rw [h, if_neg (by omega), if_neg (by omega), if_neg (by omega)]; rfl

theorem exec_macDigest (s : State) :
    exec .macDigest s = .next { s with h := (sha1d s.w).toH, status := { s.status with err := .none } } := rfl

/-- Settles O33: the schedule is `scheduleWord`, the working words are `workAfter`'s, and the model's round is the
rule's (`roundF_eq`, `digestK_eq`). -/
theorem digestRunsEightyRounds : Obligations.DigestRunsEightyRounds := by
  refine ⟨issuedBy_commandOf (op := 0x00000011) (by decide) (by decide) (by decide), fun s => ?_⟩
  refine ⟨scheduleWord s.w, fun t => (workAfter s.w t).a, fun t => (workAfter s.w t).b, fun t => (workAfter s.w t).c,
    fun t => (workAfter s.w t).d, fun t => (workAfter s.w t).e, fun t h => scheduleWord_of_lt s.w h,
    fun t hlow hhigh => ?schedule, rfl, rfl, rfl, rfl, rfl, fun t h => ?round, ?exec⟩
  case schedule => rw [scheduleWord_rec s.w hlow hhigh, scheduleRule, rotl_eq_rotateLeft (by omega)]
  case round =>
    simp only [workAfter_succ s.w h, roundStep, rotl_eq_rotateLeft (n := 5) (by omega),
      rotl_eq_rotateLeft (n := 30) (by omega), roundF_eq, digestK_eq h, and_self]
  case exec => simp only [workAfter_eighty, exec_macDigest, Work.toH]

set_option maxRecDepth 100000 in
/-- The digest of the block that pads "abc", all 80 rounds run (42_mac_digest.md R124). -/
theorem sha1d_abc : sha1d #v[0x61626380, 0, 0, 0, 0, 0, 0, 0, 0, 0, 0, 0, 0, 0, 0, 0x00000018] =
    ⟨0x42541B35, 0x5738D5E1, 0x21834873, 0x681E6DF6, 0xD8FDF6AD⟩ := by decide

/-- Settles O34: the digest depends on W alone, and that of the block of "abc" is `sha1d_abc`. -/
theorem abcDigestOmitsTheInitialState : Obligations.AbcDigestOmitsTheInitialState := by
  refine fun s => ⟨?_, by decide, by decide, by decide, by decide, by decide⟩
  rw [exec_macDigest, sha1d_abc, Work.toH]

/-- A word of MAC after the fold is the digest's word in reverse order (10_state.md R36). -/
theorem packWord_foldMac (h : Vector Word 5) {k : Nat} (hk : k < 5) :
    packWord (foldMac h) k (by omega) = h[4 - k] :=
  packWord_eq_of_bytes (by omega) fun _ hj => foldMac_get_lane h hk hj

/-- Settles O36: the read is that of word `k` of MAC, which the fold has set (`packWord_foldMac`). -/
theorem foldedWordIsTheDigestWord : Obligations.FoldedWordIsTheDigestWord := by
  refine fun s => ⟨_, exec_macFold s, fun k hk => ?_⟩
  rw [← packWord_foldMac s.h hk]
  exact exec_regRd_offset (.mac ⟨k, hk⟩) _

end Sys2Proof.Machine
end

section
/-! PROOFS, the MAC block and its verification (43_mac_verify.md R140, R142, R143, 20_memory.md R58). The block is
`macBlock`, and every one of its words is four bytes joined, first byte most significant; MAC.EXPECT and MAC.AUTH are
the smaller commands' bodies one after the other. -/

namespace Sys2Proof.Machine

/-! ### MAC.ASSEMBLE (43_mac_verify.md R140) -/

theorem exec_macAssemble (s : State) :
    exec .macAssemble s = .next { s with w := macBlock s, status := { s.status with err := .none } } := rfl

/-- Words 1 to 8 are the page's groups of four. -/
theorem macBlock_page (s : State) {k : Nat} (h : k < 8) : (macBlock s)[1 + k] = beGroup s.page (4 * k) (by omega) := by
  interval_cases k <;> rfl

theorem macBlock_pageType (s : State) : (macBlock s)[10] =
    0b01000#5 ++ s.paddr.extractLsb' 5 3 ++ s.id[0] ++ s.id[1] ++ s.id[2] := by
  show be32 (pageType s.paddr) s.id[0] s.id[1] s.id[2] = _
  rw [pageType_eq_append]
  rfl

/-- Settles O38: W is `macBlock s`, written out word by word. -/
theorem assembleBuildsTheMacBlock : Obligations.AssembleBuildsTheMacBlock :=
  ⟨issuedBy_commandOf (op := 0x00000010) (by decide) (by decide) (by decide), fun s =>
    ⟨macBlock s, rfl, fun _ hk => macBlock_page s hk, rfl, macBlock_pageType s, rfl, rfl, rfl, rfl, rfl,
      exec_macAssemble s⟩⟩

/-- The four bytes of a word joined in reverse. -/
theorem byteReverse_packWord {n : Nat} (v : Vector Byte n) (k : Nat) (h : 4 * k + 3 < n) :
    byteOf 0 (packWord v k h) ++ byteOf 1 (packWord v k h) ++ byteOf 2 (packWord v k h) ++ byteOf 3 (packWord v k h) =
      beGroup v (4 * k) h := by
  rw [packWord, byteOf_zero_le32, byteOf_one_le32, byteOf_two_le32, byteOf_three_le32]
  rfl

/-- Settles O39: each of these words is a big-endian group of a packed register, whose window word packs the same four
bytes in reverse (`byteReverse_packWord`). -/
theorem assembledWordsAreByteReversed : Obligations.AssembledWordsAreByteReversed := by
  refine fun s => ⟨_, exec_macAssemble s, fun k hk => ?page, ?sec0, ?sec1⟩
  case page =>
    have hword : windowWord (0x100 + 4 * k) s = packWord s.page k (by omega) := windowWord_offset (.page ⟨k, hk⟩) s
    rw [hword]
    exact (macBlock_page s hk).trans (byteReverse_packWord s.page k (by omega)).symm
  case sec0 =>
    have hword : windowWord 0x018 s = packWord s.sec 0 (by omega) := windowWord_offset (.sec 0) s
    rw [hword]
    exact (byteReverse_packWord s.sec 0 (by omega)).symm
  case sec1 =>
    have hword : windowWord 0x01C s = packWord s.sec 1 (by omega) := windowWord_offset (.sec 1) s
    rw [hword]
    exact (byteReverse_packWord s.sec 1 (by omega)).symm

/-! ### MAC.EXPECT and MAC.AUTH (43_mac_verify.md R142, R143) -/

/-- An ERR set to 0 between two of the steps is set to 0 again at the end. -/
theorem exec_macExpect (s : State) :
    exec .macExpect s = .next s.assembled.completed.digested.completed.folded.completed := rfl

/-- Settles O42: MAC.EXPECT is the three bodies in order (`exec_macExpect`), whose updates leave every other field. -/
theorem expectIsAssembleDigestFold : Obligations.ExpectIsAssembleDigestFold :=
  ⟨issuedBy_commandOf (op := 0x00000014) (by decide) (by decide) (by decide), fun s =>
    ⟨s.assembled.completed, s.assembled.completed.digested.completed, _, rfl, rfl, rfl, exec_macExpect s, rfl⟩⟩

theorem macEqFlag_eq_true (mac dmac : Vector Byte 20) : macEqFlag mac dmac = true ↔ mac = dmac := by
  rw [macEqFlag, decide_eq_true_eq, Vector.toList_inj]

/-- Settles O43: MAC.AUTH is MAC.EXPECT's body and then MAC.COMPARE's, and DMAC is written by neither. -/
theorem authIsExpectThenCompare : Obligations.AuthIsExpectThenCompare :=
  ⟨issuedBy_commandOf (op := 0x00000015) (by decide) (by decide) (by decide), fun s =>
    ⟨s.expected.completed, s.expected.completed.compared.completed, rfl, rfl, rfl, macEqFlag_eq_true _ s.dmac, rfl⟩⟩

/-! ### What MAC.AUTH reads (70_reset_and_hazards.md R193) -/

theorem macBlock_congr {s t : State} (hpaddr : s.paddr.extractLsb' 5 3 = t.paddr.extractLsb' 5 3)
    (hpage : s.page = t.page) (hsec : s.sec = t.sec) (hchal : s.chal = t.chal)
    (hid : ∀ j, ∀ h : j < 7, s.id[j] = t.id[j]) : macBlock s = macBlock t := by
  have hidGroup : beGroup s.id 3 (by omega) = beGroup t.id 3 (by omega) := by
    rw [beGroup, beGroup, hid 3 (by omega), hid 4 (by omega), hid 5 (by omega), hid 6 (by omega)]
  have hpageType : pageType s.paddr = pageType t.paddr := by rw [pageType_eq_append, pageType_eq_append, hpaddr]
  simp only [macBlock, hpageType, hpage, hsec, hchal, hid 0 (by omega), hid 1 (by omega), hid 2 (by omega), hidGroup]

/-- Settles O44: W is the MAC block, H its digest, MAC the digest's fold and MAC_EQ the comparison with DMAC, so all
four follow from equal blocks (`macBlock_congr`). -/
theorem authReadsOnlyItsInputs : Obligations.AuthReadsOnlyItsInputs := by
  intro s t s' t' hpaddr hpage hsec hchal hid hdmac hs ht
  cases complete_next hs
  cases complete_next ht
  have hblock : macBlock s = macBlock t := macBlock_congr hpaddr hpage hsec hchal hid
  simp [State.expected, hblock, hdmac]

end Sys2Proof.Machine
end

section
/-! PROOFS, the pseudo-instructions (30_encoding.md R79). LDFB writes its bytes four at a time, a missing byte being 0
(`packedWrites_of_ne_nil`); the frame its writes leave is `loadedFrame`, by induction on the bytes. -/

namespace Sys2Proof.Machine

/-- The first write takes the first four bytes, 0 where they are missing, and the others take the rest. -/
theorem packedWrites_of_ne_nil (off : Nat) {bs : List Byte} (h : bs ≠ []) : packedWrites off bs =
    .regWr off (le32 (bs.getD 0 0) (bs.getD 1 0) (bs.getD 2 0) (bs.getD 3 0)) ::
      packedWrites (off + 4) (bs.drop 4) := by
  match bs with
  | [] => exact absurd rfl h
  | [_] | [_, _] | [_, _, _] | _ :: _ :: _ :: _ :: _ => rfl

/-- `fb` with the bytes `bs` from its word `k` on, the rest of the last word touched 0. -/
def loadedFrame (k : Nat) (bs : List Byte) (fb : Vector Byte Config.fbBytes) : Vector Byte Config.fbBytes :=
  Vector.ofFn fun j => if k ≤ j.val / 4 ∧ j.val / 4 < k + (bs.length + 3) / 4 then bs.getD (j.val - 4 * k) 0 else fb[j]

theorem loadedFrame_get (k : Nat) (bs : List Byte) (fb : Vector Byte Config.fbBytes) {j : Nat}
    (hj : j < Config.fbBytes) : (loadedFrame k bs fb)[j] =
      if k ≤ j / 4 ∧ j / 4 < k + (bs.length + 3) / 4 then bs.getD (j - 4 * k) 0 else fb[j] := Vector.getElem_ofFn hj

theorem loadedFrame_nil (k : Nat) (fb : Vector Byte Config.fbBytes) : loadedFrame k [] fb = fb := by
  refine Vector.ext fun j hj => ?_
  rw [loadedFrame_get, if_neg]
  simp only [List.length_nil]
  omega

theorem byteOf_le32_getD (bs : List Byte) {i : Nat} (hi : i < 4) :
    byteOf i (le32 (bs.getD 0 0) (bs.getD 1 0) (bs.getD 2 0) (bs.getD 3 0)) = bs.getD i 0 := by
  rw [byteOf_le32 _ _ _ _ i hi]
  interval_cases i <;> rfl

/-- Loading is writing the first word and loading the rest behind it. -/
theorem loadedFrame_of_ne_nil {k : Nat} {bs : List Byte} (hbs : bs ≠ []) (hk : 4 * k + 3 < Config.fbBytes)
    (fb : Vector Byte Config.fbBytes) :
    loadedFrame k bs fb = loadedFrame (k + 1) (bs.drop 4)
      (unpackWord fb k (le32 (bs.getD 0 0) (bs.getD 1 0) (bs.getD 2 0) (bs.getD 3 0)) hk) := by
  have hlength : 0 < bs.length := List.length_pos_iff.mpr hbs
  refine Vector.ext fun j hj => ?_
  rw [loadedFrame_get, loadedFrame_get, unpackWord_get, List.length_drop]
  obtain hlow | hword | hhigh : j / 4 < k ∨ j / 4 = k ∨ k < j / 4 := by omega
  · rw [if_neg (by omega), if_neg (by omega), if_neg (by omega)]
  · rw [if_pos (by omega), if_neg (by omega), if_pos hword, byteOf_le32_getD bs (by omega)]
    congr 1
    omega
  · have hdrop : (bs.drop 4).getD (j - 4 * (k + 1)) 0 = bs.getD (j - 4 * k) 0 := by
      rw [List.getD_eq_getElem?_getD, List.getElem?_drop, ← List.getD_eq_getElem?_getD]
      congr 1
      omega
    rw [hdrop, if_neg (c := j / 4 = k) (by omega)]
    congr 1
    rw [eq_iff_iff]
    omega

theorem execAll_cons {i : Instr} {is : List Instr} {s t : State} (h : exec i s = .next t) :
    execAll (i :: is) s = execAll is t := by
  rw [execAll, h]

/-- The writes of LDFB, from word `k` on, complete and leave the loaded frame. -/
theorem execAll_packedWrites {k : Nat} {bs : List Byte} (hfit : 4 * k + bs.length ≤ Config.fbBytes) (s : State) :
    execAll (packedWrites (0x200 + 4 * k) bs) s = .next { s with fb := loadedFrame k bs s.fb } := by
  by_cases hbs : bs = []
  · rw [hbs, loadedFrame_nil]
    rfl
  · have hlength : 0 < bs.length := List.length_pos_iff.mpr hbs
    have hk : 4 * k + 3 < Config.fbBytes := by
      have hfb : Config.fbBytes = 64 := rfl
      omega
    have hfirst (v : Word) : exec (.regWr (0x200 + 4 * k) v) s = .next { s with fb := unpackWord s.fb k v hk } :=
      exec_regWr_offset (.fb ⟨k, by omega⟩) v s
    rw [packedWrites_of_ne_nil _ hbs, execAll_cons (hfirst _), loadedFrame_of_ne_nil hbs hk]
    exact execAll_packedWrites (k := k + 1) (by rw [List.length_drop]; omega) _
termination_by bs.length
decreasing_by rw [List.length_drop]; omega

/-- Settles O46: the writes are those from word 0 of FB on (`execAll_packedWrites`), and the three clauses are the
cases of `loadedFrame_get`. -/
theorem ldfbLoadsTheFrame : Obligations.LdfbLoadsTheFrame := by
  refine ⟨fun bs h => if_neg (by omega), fun bs s h => ⟨packedWrites 0x200 bs, loadedFrame 0 bs s.fb, if_pos h,
    execAll_packedWrites (k := 0) (by omega) s, fun j hlow hj => ?given, fun j hlow hword hj => ?padding,
    fun j hword hj => ?rest⟩⟩
  case given => rw [loadedFrame_get, if_pos (by omega), Nat.mul_zero, Nat.sub_zero, List.getD_eq_getElem _ _ hlow]
  case padding => rw [loadedFrame_get, if_pos (by omega), Nat.mul_zero, Nat.sub_zero, List.getD_eq_default _ _ hlow]
  case rest => rw [loadedFrame_get, if_neg (by omega)]

/-- Settles O47: both are the expansions' definitions. -/
theorem checkAndRdstatusExpand : Obligations.CheckAndRdstatusExpand := ⟨fun _ => rfl, rfl⟩

end Sys2Proof.Machine
end
